-- ==== Sys2Proof/Word.lean ====
section
/-! DEFINITION. The machine word and its three readings (spec/00_scope.md R7).
Addresses and exact results are integers; registers and memory hold words. -/

namespace Sys2Proof

/-- A word: 16 bits, bit 0 the least significant (00_scope.md R7). -/
abbrev Word := BitVec 16

/-- The two's-complement value of a word, in [-32768, 32767] (00_scope.md R7). -/
def sint (w : Word) : Int := w.toInt

/-- The unsigned value of a word, in [0, 65535], as the integer that addresses memory (00_scope.md R7, R10). -/
def uint (w : Word) : Int := (w.toNat : Int)

/-- The unique word whose unsigned value is `n` modulo 65536 (00_scope.md R7). -/
def wrap16 (n : Int) : Word := BitVec.ofInt 16 n

end Sys2Proof
end

