-- ==== Sys2Proof/Config.lean ====
section
/-! DEFINITION. The fixed parameters of the block (spec/00_scope.md R6) and the closed set of its fault kinds
(spec/60_exceptions.md R160). The two run inputs `start` and `limit` are arguments of the run command, not
parameters. The spec leaves no result of any instruction open, so there is no free value here. -/

namespace Sys2Proof

/-- MEM_WORDS: storage exists at word addresses 0 to 32767 (00_scope.md R6, 20_memory.md R40, 90_conflicts.md C1). -/
def Config.memWords : Nat := 32768

/-- STACK_BASE (00_scope.md R6, 41_stack.md R120). -/
def Config.stackBase : Int := 4096

/-- STACK_LIMIT, the first address above the stack segment (00_scope.md R6, 41_stack.md R120). -/
def Config.stackLimit : Int := 12288

/-- RESET_PC (00_scope.md R6, 10_state.md R33). -/
def Config.resetPc : Word := 1

/-- RESET_SP (00_scope.md R6, 10_state.md R33). -/
def Config.resetSp : Word := 4096

/-- LOAD_BASE, the first address the loader writes (00_scope.md R6, 70_reset_and_hazards.md R194). -/
def Config.loadBase : Int := 1

/-- The six fault kinds (60_exceptions.md R160). `illegalOpcode` is a kind the record can hold and no step raises
(R165). -/
inductive FaultKind where
  | stackOverflow
  | stackUnderflow
  | stackPointerCorruption
  | illegalOpcode
  | invalidOperand
  | segmentationFault
deriving DecidableEq, Repr

end Sys2Proof
end

