-- ==== Sys2Proof/Syntax.lean ====
section
/-! DEFINITION. The decoded instructions (spec/30_encoding.md R74), one constructor per row of
spec/opcode_table.json, in the order of R61. Operand numbers are the unsigned numbers of R68; the ranges that an
encoding admits are checked in WellFormed. -/

namespace Sys2Proof

/-- The six software registers, the only ones an operand can name (10_state.md R20, R21). -/
inductive Reg where
  | ax | bx | cx | sp | bp | ma
deriving DecidableEq, Repr

/-- A class-A source: a register or an 8-bit unsigned immediate (30_encoding.md R63, R74). -/
inductive Src8 where
  | reg (r : Reg)
  | imm8 (n : Nat)
deriving DecidableEq, Repr

/-- A class-S source: a register or an 11-bit unsigned immediate (30_encoding.md R64, R74). -/
inductive Src11 where
  | reg (r : Reg)
  | imm11 (n : Nat)
deriving DecidableEq, Repr

/-- The instructions (30_encoding.md R61, R74). The second argument of a class-A term is the destination. -/
inductive Instr where
  | nop
  | add (src : Src8) (d : Reg)
  | sub (src : Src8) (d : Reg)
  | mult (src : Src8) (d : Reg)
  | div (src : Src8) (d : Reg)
  | push (src : Src11)
  | pop (d : Reg)
  | mov (src : Src8) (d : Reg)
  | load (d : Reg)
  | store (src : Src11)
  | jmp (t : Nat)
  | jnz (t : Nat)
  | jz (t : Nat)
  | jn (t : Nat)
  | call (t : Nat)
  | ret
deriving DecidableEq, Repr

end Sys2Proof
end

