-- ==== Sys2Proof/WellFormed.lean ====
section
/-! DEFINITION. The checks a decoded instruction meets: every operand number lies in the range its encoding
admits (spec/30_encoding.md R69, R70, R72, R74). Register operands need no check: `Reg` has no pc and no ir
(spec/10_state.md R21). -/

namespace Sys2Proof

/-- An 8-bit immediate lies in [0, 255] (30_encoding.md R69, R74). -/
def Src8.wf : Src8 → Bool
  | .reg _ => true
  | .imm8 n => decide (n ≤ 255)

/-- An 11-bit immediate lies in [0, 2047] (30_encoding.md R70, R74). -/
def Src11.wf : Src11 → Bool
  | .reg _ => true
  | .imm11 n => decide (n ≤ 2047)

/-- A branch target lies in the code segment, [0, 4095] (30_encoding.md R72, R74). -/
def targetWf (t : Nat) : Bool := decide (t ≤ 4095)

/-- The instruction is one that some word encodes (30_encoding.md R74). -/
def Instr.wf : Instr → Bool
  | .nop => true
  | .add src _ => src.wf
  | .sub src _ => src.wf
  | .mult src _ => src.wf
  | .div src _ => src.wf
  | .push src => src.wf
  | .pop _ => true
  | .mov src _ => src.wf
  | .load _ => true
  | .store src => src.wf
  | .jmp t => targetWf t
  | .jnz t => targetWf t
  | .jz t => targetWf t
  | .jn t => targetWf t
  | .call t => targetWf t
  | .ret => true

end Sys2Proof
end

