-- ==== Sys2Proof/Decode.lean ====
section
/-! DEFINITION. The Instruction Decoder and, after it, the encoder (spec/30_encoding.md). Decoding is total on
16-bit words: an instruction, or the fault kind it raises (R75). It reads no state (R76). -/

namespace Sys2Proof

/-! ### Field extraction (30_encoding.md R68): each is the source's mask and logical shift -/

/-- `w[15:12]`. -/
def opcodeOf (w : Word) : Nat := ((w >>> 12) &&& 0xF#16).toNat

/-- `w[11]`. -/
def modeFlagOf (w : Word) : Nat := ((w >>> 11) &&& 0x1#16).toNat

/-- `w[10:3]`. -/
def immediate8Of (w : Word) : Nat := ((w >>> 3) &&& 0xFF#16).toNat

/-- `w[10:0]`. -/
def immediate11Of (w : Word) : Nat := (w &&& 0x7FF#16).toNat

/-- `w[5:3]`. -/
def srcOf (w : Word) : Nat := ((w >>> 3) &&& 0x7#16).toNat

/-- `w[2:0]`. -/
def dstOf (w : Word) : Nat := (w &&& 0x7#16).toNat

/-- `w[11:0]`. -/
def target12Of (w : Word) : Nat := (w &&& 0xFFF#16).toNat

/-! ### The decode function (30_encoding.md R75) -/

/-- The software register with the given index; 6 (pc) and 7 (ir) raise InvalidOperand (30_encoding.md R71). -/
def checkReg : Nat → Except FaultKind Reg
  | 0 => .ok .ax
  | 1 => .ok .bx
  | 2 => .ok .cx
  | 3 => .ok .sp
  | 4 => .ok .bp
  | 5 => .ok .ma
  | _ => .error .invalidOperand

/-- The class-A source: mode 1 a register, mode 0 an immediate (30_encoding.md R63, R75). -/
def src8Of (w : Word) : Except FaultKind Src8 :=
  if modeFlagOf w = 1 then (checkReg (srcOf w)).map .reg else .ok (.imm8 (immediate8Of w))

/-- The class-S source (30_encoding.md R64, R75). -/
def src11Of (w : Word) : Except FaultKind Src11 :=
  if modeFlagOf w = 1 then (checkReg (srcOf w)).map .reg else .ok (.imm11 (immediate11Of w))

/-- Class A: source, then destination (30_encoding.md R63, R75). -/
def decodeA (op : Src8 → Reg → Instr) (w : Word) : Except FaultKind Instr :=
  (src8Of w).bind fun src => (checkReg (dstOf w)).map (op src)

/-- Class S (30_encoding.md R64, R75). -/
def decodeS (op : Src11 → Instr) (w : Word) : Except FaultKind Instr :=
  (src11Of w).map op

/-- Class D (30_encoding.md R65, R75). -/
def decodeD (op : Reg → Instr) (w : Word) : Except FaultKind Instr :=
  (checkReg (dstOf w)).map op

/-- The case over the opcode in the decode function (30_encoding.md R75). The last arm is the defensive IllegalOpcode
of R77: no opcode of a 16-bit word reaches it. -/
def decodeAs (op : Nat) (w : Word) : Except FaultKind Instr :=
  match op with
  | 0 => .ok .nop
  | 1 => decodeA .add w
  | 2 => decodeA .sub w
  | 3 => decodeA .mult w
  | 4 => decodeA .div w
  | 5 => decodeS .push w
  | 6 => decodeD .pop w
  | 7 => decodeA .mov w
  | 8 => decodeD .load w
  | 9 => decodeS .store w
  | 10 => .ok (.jmp (target12Of w))
  | 11 => .ok (.jnz (target12Of w))
  | 12 => .ok (.jz (target12Of w))
  | 13 => .ok (.jn (target12Of w))
  | 14 => .ok (.call (target12Of w))
  | 15 => .ok .ret
  | _ => .error .illegalOpcode

/-- The decode function (30_encoding.md R75). -/
def decode (w : Word) : Except FaultKind Instr := decodeAs (opcodeOf w) w

/-- The instruction this decoder reads from a word given in the numbering of spec/opcode_table.json: bit 0 the
least significant, the bits above `nbits` zero. An instruction is one 16-bit word (30_encoding.md R60), so more
than 16 bits is no instruction (93_implementation_defined.md I4). -/
def decodeTableWord (nbits w : Nat) : Option Instr :=
  if nbits ≤ 16 then (decode (BitVec.ofNat 16 (w % 2 ^ nbits))).toOption else none

/-! ### The encoder (30_encoding.md R81): the format tables R63 to R67 as concatenations, ignored bits 0 -/

/-- The 3-bit index of a software register (10_state.md R20). -/
def regBits : Reg → BitVec 3
  | .ax => 0
  | .bx => 1
  | .cx => 2
  | .sp => 3
  | .bp => 4
  | .ma => 5

/-- Format A: `opcode ++ 0 ++ imm8 ++ rd`, or `opcode ++ 1 ++ 00000 ++ rs ++ rd` (30_encoding.md R63, R81). -/
def encodeA (op : BitVec 4) (src : Src8) (d : Reg) : Word :=
  match src with
  | .imm8 n => op ++ 0#1 ++ BitVec.ofNat 8 n ++ regBits d
  | .reg r => op ++ 1#1 ++ 0#5 ++ regBits r ++ regBits d

/-- Format S: `opcode ++ 0 ++ imm11`, or `opcode ++ 1 ++ 00000 ++ rs ++ 000` (30_encoding.md R64, R81). -/
def encodeS (op : BitVec 4) (src : Src11) : Word :=
  match src with
  | .imm11 n => op ++ 0#1 ++ BitVec.ofNat 11 n
  | .reg r => op ++ 1#1 ++ 0#5 ++ regBits r ++ 0#3

/-- Format D: `opcode ++ 000000000 ++ rd` (30_encoding.md R65, R81). -/
def encodeD (op : BitVec 4) (d : Reg) : Word := op ++ 0#9 ++ regBits d

/-- Format B: `opcode ++ target12` (30_encoding.md R66, R81). -/
def encodeB (op : BitVec 4) (t : Nat) : Word := op ++ BitVec.ofNat 12 t

/-- The word of a well-formed instruction (30_encoding.md R61, R81). -/
def encode : Instr → Word
  | .nop => 0#4 ++ 0#12
  | .add src d => encodeA 1 src d
  | .sub src d => encodeA 2 src d
  | .mult src d => encodeA 3 src d
  | .div src d => encodeA 4 src d
  | .push src => encodeS 5 src
  | .pop d => encodeD 6 d
  | .mov src d => encodeA 7 src d
  | .load d => encodeD 8 d
  | .store src => encodeS 9 src
  | .jmp t => encodeB 10 t
  | .jnz t => encodeB 11 t
  | .jz t => encodeB 12 t
  | .jn t => encodeB 13 t
  | .call t => encodeB 14 t
  | .ret => 15#4 ++ 0#12

end Sys2Proof
end

