-- ==== Sys2Proof/Machine/State.lean ====
section
/-! DEFINITION. The machine state (spec/10_state.md: "Nothing else is state"), plain data, its reset value
(R33), and the reasons a step of the model can stop. -/

namespace Sys2Proof.Machine

/-- Memory: (word address, word) pairs, addresses strictly rising, no zero word listed; an address that is not
listed holds 0, its reset contents (20_memory.md R40, 10_state.md R33; log entries 1 and 2). -/
abbrev Memory := List (Nat × Word)

/-- The state of the Fetch-Execute Cycle (10_state.md R28). -/
inductive Status where
  | running
  | halted
deriving DecidableEq, Repr

/-- The fault record: the kind, and `pc` and `ir` at the fault (10_state.md R29). -/
structure FaultRecord where
  kind : FaultKind
  fpc : Word
  fir : Word
deriving DecidableEq, Repr

/-- All the state the spec gives the block: the eight register slots (10_state.md R20), the memory
(20_memory.md R40), the idle flag (10_state.md R27), and the cycle state with its fault record and run bound
(10_state.md R28, R29, R30). -/
structure State where
  ax : Word
  bx : Word
  cx : Word
  sp : Word
  bp : Word
  ma : Word
  pc : Word
  ir : Word
  mem : Memory
  idle : Bool
  status : Status
  fault : Option FaultRecord
  limit : Int
deriving DecidableEq, Repr

/-- The state after reset (10_state.md R33, 70_reset_and_hazards.md R190). The spec gives every value but that of
`limit`, "unspecified; no rule reads it until a run command writes it": 0 here, DESIGN CHOICE, log entry 3. -/
def State.reset : State where
  ax := 0
  bx := 0
  cx := 0
  sp := Config.resetSp
  bp := 0
  ma := 0
  pc := Config.resetPc
  ir := 0
  mem := []
  idle := true
  status := .halted
  fault := none
  limit := 0

/-- Why the model has no step. The six fault kinds of the hardware are not here: a fault of the hardware is a next
state, Halted with its record (60_exceptions.md R170). -/
inductive Fault where
  /-- Raised by `step` in a Halted state with no fault recorded: the cycle has no step until the host's next run
  command (60_exceptions.md R173, R174; log entry 4). Safe. -/
  | haltedNoRun
  /-- Raised by `step` in a Halted state whose record names the kind: nothing executes until reset
  (60_exceptions.md R171, R174; log entry 4). Safe. -/
  | haltedByFault (kind : FaultKind)
deriving DecidableEq, Repr

/-- Why an instruction has no meaning here. -/
inductive Refusal where
  /-- Raised by an arm of `exec` whose instruction has no meaning yet; every instruction has one, so nothing
  raises it. Safe. -/
  | notModelled (mnemonic : String)
deriving DecidableEq, Repr

end Sys2Proof.Machine
end

