-- ==== Sys2Proof/Machine/Ops.lean ====
section
/-! DEFINITION. The shared operations over memory, registers and the cycle state: every access, every write, and
the taking of a fault, each said once. -/

namespace Sys2Proof.Machine

/-! ### Memory as sparse data -/

/-- What an address that is not listed holds: its reset contents (10_state.md R33, 93_implementation_defined.md
I15). -/
def Memory.unlisted : Word := 0

/-- The word at an address. -/
def Memory.read : Memory → Nat → Word
  | [], _ => Memory.unlisted
  | (b, u) :: m, a => if a = b then u else Memory.read m a

/-- List a word at its place, in place of the one listed there. -/
def Memory.insert : Memory → Nat → Word → Memory
  | [], a, v => [(a, v)]
  | (b, u) :: m, a, v =>
    if a < b then (a, v) :: (b, u) :: m
    else if a = b then (a, v) :: m
    else (b, u) :: Memory.insert m a v

/-- No longer list an address. -/
def Memory.erase (m : Memory) (a : Nat) : Memory := m.filter fun c => decide (c.1 ≠ a)

/-- Store a word, keeping the canonical form: a word equal to what an unlisted address holds is not listed. -/
def Memory.write (m : Memory) (a : Nat) (v : Word) : Memory :=
  if v = Memory.unlisted then m.erase a else m.insert a v

/-- The canonical form: addresses strictly rising and below MEM_WORDS, no listed word equal to an unlisted one. -/
def Memory.wf : Memory → Bool
  | [] => true
  | (a, v) :: m =>
    decide (a < Config.memWords) && decide (v ≠ Memory.unlisted) && m.all (fun c => decide (a < c.1)) && Memory.wf m

/-! ### Memory access (20_memory.md R40, R43, 00_scope.md R10): one whole word at an integer address -/

/-- Storage exists at the address (20_memory.md R41, R43). -/
def backed (a : Int) : Bool :=
  match a with
  | .ofNat n => decide (n < Config.memWords)
  | .negSucc _ => false

/-- `MemRead(a, 1)` (00_scope.md R10). -/
def memRead (a : Int) (s : State) : Except FaultKind Word :=
  if backed a then .ok (s.mem.read a.toNat) else .error .segmentationFault

/-- `MemWrite(a, 1, v)` (00_scope.md R10). -/
def memWrite (a : Int) (v : Word) (s : State) : Except FaultKind State :=
  if backed a then .ok { s with mem := s.mem.write a.toNat v } else .error .segmentationFault

/-! ### Registers (10_state.md R20): no aliases, no hardwired values -/

/-- Read a software register. -/
def readReg (r : Reg) (s : State) : Word :=
  match r with
  | .ax => s.ax
  | .bx => s.bx
  | .cx => s.cx
  | .sp => s.sp
  | .bp => s.bp
  | .ma => s.ma

/-- Write a software register. -/
def writeReg (r : Reg) (v : Word) (s : State) : State :=
  match r with
  | .ax => { s with ax := v }
  | .bx => { s with bx := v }
  | .cx => { s with cx := v }
  | .sp => { s with sp := v }
  | .bp => { s with bp := v }
  | .ma => { s with ma := v }

/-- Write the program counter: only the cycle and the branch handlers do (10_state.md R21, R24). -/
def setPc (v : Word) (s : State) : State := { s with pc := v }

/-- Write the instruction register: only the fetch does (10_state.md R25). -/
def latchIr (w : Word) (s : State) : State := { s with ir := w }

/-- Read a register slot by its index: what the host path sees (10_state.md R20, 70_reset_and_hazards.md R195). -/
def readSlot (i : Fin 8) (s : State) : Word :=
  match i with
  | 0 => s.ax
  | 1 => s.bx
  | 2 => s.cx
  | 3 => s.sp
  | 4 => s.bp
  | 5 => s.ma
  | 6 => s.pc
  | 7 => s.ir

/-! ### The fault-state machine (60_exceptions.md R170) -/

/-- Taking a fault: Halted, with the record (kind, pc, ir); nothing else changes (60_exceptions.md R170). -/
def takeFault (k : FaultKind) (s : State) : State :=
  { s with status := .halted, fault := some ⟨k, s.pc, s.ir⟩ }

/-! ### The pieces of one step of the cycle (60_exceptions.md R174) -/

/-- The limit check, `sint(pc) >= limit` (60_exceptions.md R175). -/
def limitReached (s : State) : Bool := decide (s.limit ≤ sint s.pc)

/-- Halt on the limit: the fault record keeps its value (60_exceptions.md R174, R175). -/
def haltOnLimit (s : State) : State := { s with status := .halted }

/-- The fetch port: the word at `uint(pc)` (20_memory.md R42, 60_exceptions.md R174). -/
def fetch (s : State) : Except FaultKind Word := memRead (uint s.pc) s

/-- The increment that ends every completed instruction (60_exceptions.md R174, 10_state.md R24). -/
def advancePc (s : State) : State := setPc (wrap16 (sint s.pc + 1)) s

/-- The end of an instruction. A handler that completed is followed by the increment (60_exceptions.md R174). A
handler that raised a fault wrote nothing, and the fault is taken in the state before it (00_scope.md R11,
60_exceptions.md R169, R170). -/
def finish (s : State) (result : Except FaultKind State) : Host.Outcome State Fault Refusal :=
  match result with
  | .ok t => .next (advancePc t)
  | .error k => .next (takeFault k s)

/-! ### The stack (41_stack.md R120) -/

/-- Full: no word may be pushed. Signed comparison (41_stack.md R120). -/
def stackFull (s : State) : Bool := decide (Config.stackLimit ≤ sint s.sp)

/-- Empty: no word may be popped. Signed comparison (41_stack.md R120). -/
def stackEmpty (s : State) : Bool := decide (sint s.sp ≤ Config.stackBase)

/-- What push and call share: the overflow check, the store at `uint(sp)`, then `sp + 1` (41_stack.md R121,
43_control.md R144). -/
def pushWord (v : Word) (s : State) : Except FaultKind State :=
  if stackFull s then .error .stackOverflow
  else (memWrite (uint s.sp) v s).map (writeReg .sp (wrap16 (sint s.sp + 1)))

/-- What pop and ret share: the check for an empty stack, which raises `onEmpty`, the read at `sint(sp) - 1`, then
`sp - 1` (41_stack.md R122, 43_control.md R145). The memory word is not cleared. -/
def popWord (onEmpty : FaultKind) (s : State) : Except FaultKind (Word × State) :=
  if stackEmpty s then .error onEmpty
  else (memRead (sint s.sp - 1) s).map fun v => (v, writeReg .sp (wrap16 (sint s.sp - 1)) s)

/-! ### Control transfer (43_control.md R146) -/

/-- A taken transfer writes `target - 1`: the increment that follows lands on the target (43_control.md R146). -/
def branchTo (t : Nat) (s : State) : State := setPc (wrap16 ((t : Int) - 1)) s

/-! ### No step, and placing a word to run -/

/-- Why a Halted state has no step (60_exceptions.md R171, R174; log entry 4). -/
def noStep (s : State) : Fault :=
  match s.fault with
  | none => .haltedNoRun
  | some r => .haltedByFault r.kind

/-- The state in which the very next step runs the word `w`: `w` stored where the fetch reads, the cycle Running
below its limit, no fault recorded. The pc is kept where it addresses storage, else it is the reset pc; the limit
is kept where it lies above the pc, else it is one past it (log entry 5). -/
def placeWord (w : Word) (s : State) : State :=
  let pc := if backed (uint s.pc) then s.pc else Config.resetPc
  { s with
    pc := pc
    mem := s.mem.write (uint pc).toNat w
    status := .running
    fault := none
    limit := if sint pc < s.limit then s.limit else sint pc + 1 }

end Sys2Proof.Machine
end

