-- ==== Sys2Proof/Machine/Operands.lean ====
section
/-! DEFINITION. The operand forms, said once: the source values of classes A and S (spec/40_arith_move.md R100,
41_stack.md R121, 42_load_store.md R131), the address of load and store (42_load_store.md R129), and the integer
division of 00_scope.md R12. A source is read in the state before the instruction writes anything (00_scope.md
R13). -/

namespace Sys2Proof.Machine

/-- Widen an unsigned number to a word; no immediate is sign-extended (00_scope.md R8, 30_encoding.md R69, R70). -/
def zext16 (n : Nat) : Word := BitVec.ofNat 16 n

/-- The class-A source value (40_arith_move.md R100). -/
def val8 (src : Src8) (s : State) : Word :=
  match src with
  | .reg r => readReg r s
  | .imm8 n => zext16 n

/-- The class-S source value (41_stack.md R121, 42_load_store.md R131). -/
def val11 (src : Src11) (s : State) : Word :=
  match src with
  | .reg r => readReg r s
  | .imm11 n => zext16 n

/-- The effective address of load and store, `ma` taken as unsigned (42_load_store.md R129). -/
def effAddr (s : State) : Int := uint s.ma

/-- The quotient rounded toward zero, on unbounded integers (00_scope.md R12). -/
def tdiv (a b : Int) : Int := Int.tdiv a b

/-- The remainder `a - tdiv(a, b) × b` (00_scope.md R12). -/
def trem (a b : Int) : Int := a - tdiv a b * b

end Sys2Proof.Machine
end

