-- ==== Sys2Proof/Machine/Flags.lean ====
section
/-! DEFINITION. The hardware has no flags register and no instruction writes a flag (spec/10_state.md R26). What it
has in place of flags are the three conditions the branches test on `cx` (43_control.md R141 to R143). -/

namespace Sys2Proof.Machine

/-- The condition of jnz (43_control.md R141). -/
def cxNonZero (s : State) : Bool := decide (sint s.cx ≠ 0)

/-- The condition of jz (43_control.md R142). -/
def cxZero (s : State) : Bool := decide (sint s.cx = 0)

/-- The condition of jn, a signed comparison (43_control.md R143). -/
def cxNegative (s : State) : Bool := decide (sint s.cx < 0)

end Sys2Proof.Machine
end

