-- ==== Sys2Proof/Machine/Arith.lean ====
section
/-! DEFINITION. The arithmetic and move instructions (spec/40_arith_move.md): nop, add, sub, mult, div, mov. -/

namespace Sys2Proof.Machine

/-- The shape of add, sub and mult: compute exactly on the signed values, wrap once (40_arith_move.md R102 to
R104, R107). -/
def aluExact (op : Int → Int → Int) (src : Src8) (d : Reg) (s : State) : State :=
  writeReg d (wrap16 (op (sint (readReg d s)) (sint (val8 src s)))) s

/-- nop (40_arith_move.md R101). -/
def execNop (s : State) : Host.Outcome State Fault Refusal := finish s (.ok s)

/-- add (40_arith_move.md R102). -/
def execAdd (src : Src8) (d : Reg) (s : State) : Host.Outcome State Fault Refusal :=
  finish s (.ok (aluExact (fun a b => a + b) src d s))

/-- sub (40_arith_move.md R103). -/
def execSub (src : Src8) (d : Reg) (s : State) : Host.Outcome State Fault Refusal :=
  finish s (.ok (aluExact (fun a b => a - b) src d s))

/-- mult (40_arith_move.md R104). -/
def execMult (src : Src8) (d : Reg) (s : State) : Host.Outcome State Fault Refusal :=
  finish s (.ok (aluExact (fun a b => a * b) src d s))

/-- div (40_arith_move.md R105): both values are read first; the remainder is written to cx last, so it wins where
cx is the destination (90_conflicts.md C3). -/
def execDiv (src : Src8) (d : Reg) (s : State) : Host.Outcome State Fault Refusal :=
  let a := sint (readReg d s)
  let b := sint (val8 src s)
  finish s (if b = 0 then .error .invalidOperand
    else .ok (writeReg .cx (wrap16 (trem a b)) (writeReg d (wrap16 (tdiv a b)) s)))

/-- mov (40_arith_move.md R106). -/
def execMov (src : Src8) (d : Reg) (s : State) : Host.Outcome State Fault Refusal :=
  finish s (.ok (writeReg d (val8 src s) s))

end Sys2Proof.Machine
end

