-- ==== Sys2Proof/Machine/Control.lean ====
section
/-! DEFINITION. Control transfer (spec/43_control.md): jmp, jnz, jz, jn, call, ret. -/

namespace Sys2Proof.Machine

/-- Branch where the condition holds; else only the increment moves the pc (43_control.md R141 to R143). -/
def branchIf (c : Bool) (t : Nat) (s : State) : State := if c then branchTo t s else s

/-- jmp (43_control.md R140). -/
def execJmp (t : Nat) (s : State) : Host.Outcome State Fault Refusal := finish s (.ok (branchTo t s))

/-- jnz (43_control.md R141). -/
def execJnz (t : Nat) (s : State) : Host.Outcome State Fault Refusal :=
  finish s (.ok (branchIf (cxNonZero s) t s))

/-- jz (43_control.md R142). -/
def execJz (t : Nat) (s : State) : Host.Outcome State Fault Refusal :=
  finish s (.ok (branchIf (cxZero s) t s))

/-- jn (43_control.md R143). -/
def execJn (t : Nat) (s : State) : Host.Outcome State Fault Refusal :=
  finish s (.ok (branchIf (cxNegative s) t s))

/-- call (43_control.md R144): the word saved is the call's own address. -/
def execCall (t : Nat) (s : State) : Host.Outcome State Fault Refusal :=
  finish s ((pushWord s.pc s).map (branchTo t))

/-- ret (43_control.md R145): an empty stack raises StackOverflow (60_exceptions.md R162, 92_eei_decisions.md D4);
the popped word is taken as it is, and the increment lands after the call. -/
def execRet (s : State) : Host.Outcome State Fault Refusal :=
  finish s ((popWord .stackOverflow s).map fun p => setPc p.1 p.2)

end Sys2Proof.Machine
end

