-- ==== Sys2Proof/Machine/LoadStore.lean ====
section
/-! DEFINITION. load and store (spec/42_load_store.md). -/

namespace Sys2Proof.Machine

/-- load (42_load_store.md R130). -/
def execLoad (d : Reg) (s : State) : Host.Outcome State Fault Refusal :=
  finish s ((memRead (effAddr s) s).map fun v => writeReg d v s)

/-- store (42_load_store.md R131). -/
def execStore (src : Src11) (s : State) : Host.Outcome State Fault Refusal :=
  finish s (memWrite (effAddr s) (val11 src s) s)

end Sys2Proof.Machine
end

