-- ==== Sys2Proof/Machine/Stack.lean ====
section
/-! DEFINITION. The stack instructions (spec/41_stack.md): push, pop. -/

namespace Sys2Proof.Machine

/-- push (41_stack.md R121): the source is resolved first, so `push sp` pushes sp before the increment. -/
def execPush (src : Src11) (s : State) : Host.Outcome State Fault Refusal :=
  finish s (pushWord (val11 src s) s)

/-- pop (41_stack.md R122): the check of the destination comes before the check for an empty stack. -/
def execPop (d : Reg) (s : State) : Host.Outcome State Fault Refusal :=
  finish s (if d = .sp then .error .stackPointerCorruption
    else (popWord .stackUnderflow s).map fun p => writeReg d p.1 p.2)

end Sys2Proof.Machine
end

