-- ==== Sys2Proof/Machine/Dispatch.lean ====
section
/-! DEFINITION. The dispatch: one arm per instruction (spec/60_exceptions.md R174, "an exhaustive match over the
enumeration"). `exec` is the part of a step after decode: the handler, then the increment or the fault entry. -/

namespace Sys2Proof.Machine

def exec (i : Instr) (s : State) : Host.Outcome State Fault Refusal :=
  match i with
  | .nop => Sys2Proof.Machine.execNop s
  | .add src d => Sys2Proof.Machine.execAdd src d s
  | .sub src d => Sys2Proof.Machine.execSub src d s
  | .mult src d => Sys2Proof.Machine.execMult src d s
  | .div src d => Sys2Proof.Machine.execDiv src d s
  | .push src => Sys2Proof.Machine.execPush src s
  | .pop d => Sys2Proof.Machine.execPop d s
  | .mov src d => Sys2Proof.Machine.execMov src d s
  | .load d => Sys2Proof.Machine.execLoad d s
  | .store src => Sys2Proof.Machine.execStore src s
  | .jmp t => Sys2Proof.Machine.execJmp t s
  | .jnz t => Sys2Proof.Machine.execJnz t s
  | .jz t => Sys2Proof.Machine.execJz t s
  | .jn t => Sys2Proof.Machine.execJn t s
  | .call t => Sys2Proof.Machine.execCall t s
  | .ret => Sys2Proof.Machine.execRet s

end Sys2Proof.Machine
end

