-- ==== Sys2Proof/Machine/Step.lean ====
section
/-! DEFINITION. One step of the Fetch-Execute Cycle (spec/60_exceptions.md R174). -/

namespace Sys2Proof.Machine

/-- One step: the limit check, the fetch into ir, decode, execute (60_exceptions.md R174). A fault of the fetch is
taken with the old ir, a fault of decode with the fetched word in ir (R170). A Halted cycle has no step. -/
def step (s : State) : Host.Outcome State Fault Refusal :=
  match s.status with
  | .halted => .fault (noStep s)
  | .running =>
    if limitReached s then .next (haltOnLimit s)
    else
      match fetch s with
      | .error k => .next (takeFault k s)
      | .ok w =>
        match decode w with
        | .error k => .next (takeFault k (latchIr w s))
        | .ok i => exec i (latchIr w s)

/-- `s` with the word of spec/opcode_table.json's numbering (the bits above `nbits` zero) placed where the next
step fetches, and the cycle Running so that it does (log entry 5). -/
def State.withFetchWord (s : State) (nbits w : Nat) : State :=
  placeWord (BitVec.ofNat 16 (w % 2 ^ nbits)) s

end Sys2Proof.Machine
end

