-- ==== Sys2Proof/Machine/HostPort.lean ====
section
/-! DEFINITION. The host path, the run command, and the status and trace ports (spec/60_exceptions.md R173, R181,
70_reset_and_hazards.md R190 to R196). Each operation answers its result or names why it is refused; a refused
transaction changes nothing. -/

namespace Sys2Proof.Machine

/-- Why the block refuses a transaction (60_exceptions.md R173, 70_reset_and_hazards.md R195, R196). -/
inductive HostRefusal where
  /-- The transaction needs status = Halted. -/
  | running
  /-- A fault is recorded: no run until reset (60_exceptions.md R171, R173). -/
  | faultRecorded
  /-- No storage at the address (70_reset_and_hazards.md R195). -/
  | outOfRange
  /-- The cycle is Halted and has no step (60_exceptions.md R174). -/
  | notRunning
deriving DecidableEq, Repr

/-- The host path and the run command act only while Halted (70_reset_and_hazards.md R195, 60_exceptions.md R173). -/
def whenHalted {α : Type} (s : State) (act : Except HostRefusal α) : Except HostRefusal α :=
  match s.status with
  | .running => .error .running
  | .halted => act

/-- HostWrite(a, w) (70_reset_and_hazards.md R195). -/
def hostWrite (a : Int) (w : Word) (s : State) : Except HostRefusal State :=
  whenHalted s ((memWrite a w s).mapError fun _ => .outOfRange)

/-- HostRead(a) (70_reset_and_hazards.md R195). An address without storage is refused: DEDUCED, log entry 6. -/
def hostRead (a : Int) (s : State) : Except HostRefusal Word :=
  whenHalted s ((memRead a s).mapError fun _ => .outOfRange)

/-- RegRead(i) (70_reset_and_hazards.md R195, R196). -/
def regRead (i : Fin 8) (s : State) : Except HostRefusal Word := whenHalted s (.ok (readSlot i s))

/-- Run(start, limit) (60_exceptions.md R173). -/
def runCommand (start : Word) (limit : Int) (s : State) : Except HostRefusal State :=
  whenHalted s <|
    match s.fault with
    | some _ => .error .faultRecorded
    | none => .ok { s with pc := start, limit := limit, status := .running }

/-- The loader from a cursor on: one host write per word, the cursor moving by one (70_reset_and_hazards.md R194).
Where a write is refused the load ends there and answers the refusal alone, no state: DESIGN CHOICE, log entry 15. -/
def loadFrom : Int → List Word → State → Except HostRefusal State
  | _, [], s => .ok s
  | a, w :: ws, s =>
    match hostWrite a w s with
    | .ok t => loadFrom (a + 1) ws t
    | .error e => .error e

/-- The loader: word k of the program goes to address 1 + k (70_reset_and_hazards.md R194). What a program past the
last address does is log entry 15. -/
def loadProgram (ws : List Word) (s : State) : Except HostRefusal State := loadFrom Config.loadBase ws s

/-- The code of a fault kind in the status port (60_exceptions.md R160). -/
def faultCode : FaultKind → Nat
  | .stackOverflow => 1
  | .stackUnderflow => 2
  | .stackPointerCorruption => 3
  | .illegalOpcode => 4
  | .invalidOperand => 5
  | .segmentationFault => 6

/-- What the status port shows (60_exceptions.md R181): the status, the fault code (0 where there is no fault),
and fpc and fir where there is one (log entry 8). -/
structure StatusView where
  status : Status
  code : Nat
  fpc : Option Word
  fir : Option Word
deriving DecidableEq, Repr

/-- The status port (60_exceptions.md R181). -/
def statusPort (s : State) : StatusView where
  status := s.status
  code := (s.fault.map fun r => faultCode r.kind).getD 0
  fpc := s.fault.map (·.fpc)
  fir := s.fault.map (·.fir)

/-- What the trace port shows (60_exceptions.md R181): the six software registers, pc, and the word on top of the
stack where sp is above the stack base. -/
structure TraceView where
  ax : Word
  bx : Word
  cx : Word
  sp : Word
  bp : Word
  ma : Word
  pc : Word
  top : Option Word
deriving DecidableEq, Repr

/-- The trace of a state (60_exceptions.md R181). -/
def traceView (s : State) : TraceView where
  ax := s.ax
  bx := s.bx
  cx := s.cx
  sp := s.sp
  bp := s.bp
  ma := s.ma
  pc := s.pc
  top := if stackEmpty s then none else (memRead (sint s.sp - 1) s).toOption

/-- The trace port after a step from `s` to `t`: the trace of `t`, but nothing after a limit halt, which executes
no instruction (60_exceptions.md R181; log entry 7). -/
def stepTrace (s t : State) : Option TraceView := if limitReached s then none else some (traceView t)

end Sys2Proof.Machine
end

