-- ==== Sys2Proof/Machine/Transactions.lean ====
section
/-! DEFINITION. The block's interface as the list of transactions of spec/70_reset_and_hazards.md R196, and the one
function that performs any of them: the host's moves and the cycle's own step, over one state. -/

namespace Sys2Proof.Machine

/-- The transactions (70_reset_and_hazards.md R196). The trace is part of the reply to a step. -/
inductive Transaction where
  | reset
  | hostWrite (a : Int) (w : Word)
  | hostRead (a : Int)
  | regRead (i : Fin 8)
  | run (start : Word) (limit : Int)
  | step
  | status
deriving DecidableEq, Repr

/-- What a transaction shows outside the block. -/
inductive Reply where
  /-- Done, nothing to show: reset, host write, run. -/
  | done
  /-- The word read. -/
  | word (w : Word)
  /-- The status port. -/
  | status (v : StatusView)
  /-- A step was taken; its trace, where it shows one. -/
  | stepped (trace : Option TraceView)
  /-- Refused: nothing changed. -/
  | refused (e : HostRefusal)
deriving DecidableEq, Repr

/-- The reply to a transaction that writes state. -/
def performWrite (s : State) (result : Except HostRefusal State) : Reply × State :=
  match result with
  | .ok t => (.done, t)
  | .error e => (.refused e, s)

/-- The reply to a transaction that reads. -/
def performRead (s : State) (result : Except HostRefusal Word) : Reply × State :=
  match result with
  | .ok w => (.word w, s)
  | .error e => (.refused e, s)

/-- The cycle's step as a transaction: none while Halted (60_exceptions.md R174). -/
def performStep (s : State) : Reply × State :=
  match step s with
  | .next t => (.stepped (stepTrace s t), t)
  | .fault _ => (.refused .notRunning, s)
  | .refused _ => (.refused .notRunning, s)

/-- Perform a transaction: its reply, and the state after it (70_reset_and_hazards.md R196). -/
def perform (τ : Transaction) (s : State) : Reply × State :=
  match τ with
  | .reset => (.done, State.reset)
  | .hostWrite a w => performWrite s (Sys2Proof.Machine.hostWrite a w s)
  | .hostRead a => performRead s (Sys2Proof.Machine.hostRead a s)
  | .regRead i => performRead s (Sys2Proof.Machine.regRead i s)
  | .run start limit => performWrite s (runCommand start limit s)
  | .step => performStep s
  | .status => (.status (statusPort s), s)

end Sys2Proof.Machine
end

