-- ==== Sys2Proof/Safety.lean ====
section
/-! DEFINITION. What counts as a safe run, and the terms the claims are stated in: the state invariant, what an
instruction leaves unchanged, completing and raising, and the instruction formats as bit concatenations. -/

namespace Sys2Proof.Machine

/-! ### Safe states -/

/-- No fault is recorded: the run so far is safe (spec/60_exceptions.md R169). -/
def NoFault (s : State) : Prop := s.fault = none

/-- The invariant, its form the model's: the memory is in canonical form (the model's own choice, log entry 1),
`idle` is true (10_state.md R27), a recorded fault halts the cycle (R29), and the record holds the pc and ir of the
state it was taken in (60_exceptions.md R170; the spec's decisions D2 and D16), with a kind some step raises
(R165). -/
structure StateInv (s : State) : Prop where
  memory : s.mem.wf = true
  idle : s.idle = true
  faultHalts : s.fault ≠ none → s.status = .halted
  record : ∀ r, s.fault = some r → r.fpc = s.pc ∧ r.fir = s.ir ∧ r.kind ≠ .illegalOpcode

/-! ### What stays unchanged -/

/-- ir, idle, status, fault and limit are unchanged. -/
def CycleKept (s t : State) : Prop :=
  t.ir = s.ir ∧ t.idle = s.idle ∧ t.status = s.status ∧ t.fault = s.fault ∧ t.limit = s.limit

/-- Every software register but the listed ones is unchanged. -/
def RegsKeptBut (written : List Reg) (s t : State) : Prop := ∀ r, r ∉ written → readReg r t = readReg r s

/-- Every address reads as before, addresses without storage included. -/
def MemKept (s t : State) : Prop := ∀ a : Int, memRead a t = memRead a s

/-- Every address but `b` reads as before. -/
def MemKeptBut (b : Int) (s t : State) : Prop := ∀ a : Int, a ≠ b → memRead a t = memRead a s

/-- The pc is that of the following word (60_exceptions.md R174). -/
def NextPc (s t : State) : Prop := t.pc = wrap16 (sint s.pc + 1)

/-- Only the memory may differ. -/
def OnlyMemory (s t : State) : Prop := t = { s with mem := t.mem }

/-- What a program can see agrees: the software registers, the pc and the memory (10_state.md R31). -/
def SameVisible (s t : State) : Prop := (∀ r, readReg r t = readReg r s) ∧ t.pc = s.pc ∧ t.mem = s.mem

/-! ### Completing and raising -/

/-- The instruction answers a next state with the cycle's own state and every register but the listed ones
unchanged, and `P` holds of that state. -/
def Completes (i : Instr) (s : State) (written : List Reg) (P : State → Prop) : Prop :=
  ∃ t, exec i s = .next t ∧ CycleKept s t ∧ RegsKeptBut written s t ∧ P t

/-- The instruction raises the fault kind: the cycle halts with that kind recorded, and no software register and no
memory word changes. -/
def Raises (i : Instr) (s : State) (k : FaultKind) : Prop :=
  ∃ t, exec i s = .next t ∧ t.status = .halted ∧ t.fault.map FaultRecord.kind = some k ∧ RegsKeptBut [] s t ∧
    MemKept s t

/-- `t` is `s` after the fault entry of 60_exceptions.md R170, whole: nothing else changed. -/
def FaultEntry (k : FaultKind) (s t : State) : Prop :=
  t = { s with status := .halted, fault := some ⟨k, s.pc, s.ir⟩ }

/-- The instruction takes the whole fault entry of 60_exceptions.md R170. -/
def RaisesPrecisely (i : Instr) (s : State) (k : FaultKind) : Prop := ∃ t, exec i s = .next t ∧ FaultEntry k s t

/-- Execute one instruction `n` times in a row. -/
def repeatExec (i : Instr) : Nat → State → Host.Outcome State Fault Refusal
  | 0, s => .next s
  | n + 1, s =>
    match exec i s with
    | .next t => repeatExec i n t
    | .fault r => .fault r
    | .refused r => .refused r

/-- sp lies in [4096, 12288] (41_stack.md R124). -/
def SpInBounds (s : State) : Prop := 4096 ≤ sint s.sp ∧ sint s.sp ≤ 12288

/-- The cycle is about to execute: Running, and the pc below the limit (60_exceptions.md R174). -/
def AboutToFetch (s : State) : Prop := s.status = .running ∧ sint s.pc < s.limit

/-! ### The formats of 30_encoding.md R63 to R67, as concatenations of fields -/

/-- Format A (30_encoding.md R63), with the field check of R71. -/
def FormatA (op : BitVec 4) (mk : Src8 → Reg → Instr) : Prop :=
  (∀ (n : BitVec 8) (d : Reg), decode (op ++ 0#1 ++ n ++ regBits d) = .ok (mk (.imm8 n.toNat) d)) ∧
  (∀ (x : BitVec 5) (r d : Reg), decode (op ++ 1#1 ++ x ++ regBits r ++ regBits d) = .ok (mk (.reg r) d)) ∧
  (∀ (m : BitVec 1) (x : BitVec 8) (f : BitVec 3), 6 ≤ f.toNat →
    decode (op ++ m ++ x ++ f) = .error .invalidOperand) ∧
  (∀ (x : BitVec 5) (f g : BitVec 3), 6 ≤ f.toNat → decode (op ++ 1#1 ++ x ++ f ++ g) = .error .invalidOperand)

/-- Format S (30_encoding.md R64), with the field check of R71. -/
def FormatS (op : BitVec 4) (mk : Src11 → Instr) : Prop :=
  (∀ n : BitVec 11, decode (op ++ 0#1 ++ n) = .ok (mk (.imm11 n.toNat))) ∧
  (∀ (x : BitVec 5) (r : Reg) (y : BitVec 3), decode (op ++ 1#1 ++ x ++ regBits r ++ y) = .ok (mk (.reg r))) ∧
  (∀ (x : BitVec 5) (f y : BitVec 3), 6 ≤ f.toNat → decode (op ++ 1#1 ++ x ++ f ++ y) = .error .invalidOperand)

/-- Format D (30_encoding.md R65), with the field check of R71. -/
def FormatD (op : BitVec 4) (mk : Reg → Instr) : Prop :=
  (∀ (x : BitVec 9) (d : Reg), decode (op ++ x ++ regBits d) = .ok (mk d)) ∧
  (∀ (x : BitVec 9) (f : BitVec 3), 6 ≤ f.toNat → decode (op ++ x ++ f) = .error .invalidOperand)

/-- Format B (30_encoding.md R66). -/
def FormatB (op : BitVec 4) (mk : Nat → Instr) : Prop := ∀ t : BitVec 12, decode (op ++ t) = .ok (mk t.toNat)

/-- Format N (30_encoding.md R67). -/
def FormatN (op : BitVec 4) (i : Instr) : Prop := ∀ x : BitVec 12, decode (op ++ x) = .ok i

/-- The opcode field, `w[15:12]` (30_encoding.md R61). -/
def opcodeField (w : Word) : Nat := (w.extractLsb' 12 4).toNat

/-- The opcodes of class A, the ALU/mov class (30_encoding.md R62). -/
def classA (w : Word) : Bool := opcodeField w ∈ [1, 2, 3, 4, 7]

/-- The opcodes of class S, push and store (30_encoding.md R62). -/
def classS (w : Word) : Bool := opcodeField w ∈ [5, 9]

/-- The opcodes of class D, pop and load (30_encoding.md R62). -/
def classD (w : Word) : Bool := opcodeField w ∈ [6, 8]

/-- A register field that the word's class decodes holds 6 or 7 (30_encoding.md R71). -/
def BadRegisterField (w : Word) : Prop :=
  (classA w ∧ (6 ≤ (w.extractLsb' 0 3).toNat ∨ (w.getLsbD 11 ∧ 6 ≤ (w.extractLsb' 3 3).toNat))) ∨
  (classS w ∧ w.getLsbD 11 ∧ 6 ≤ (w.extractLsb' 3 3).toNat) ∨
  (classD w ∧ 6 ≤ (w.extractLsb' 0 3).toNat)

/-- The bits of a word that are not ignored (30_encoding.md R73): its operand bits and its opcode. -/
def significantBits (w : Word) : Word :=
  if classA w then (if w.getLsbD 11 then 0xF83F else 0xFFFF)
  else if classS w then (if w.getLsbD 11 then 0xF838 else 0xFFFF)
  else if classD w then 0xF007
  else if opcodeField w ∈ [0, 15] then 0xF000
  else 0xFFFF

end Sys2Proof.Machine
end

