-- ==== Sys2Proof/Certificates/Slice0/Obligations.lean ====
section
/-! DEFINITION. The statements for the provers. A docstring names the rule of spec/ a statement formalises, or,
where it rests on one of the spec's own decisions or on a choice of this model, which one. -/

open Sys2Proof Sys2Proof.Machine

/-! ### Reset and the invariant -/

/-- 10_state.md section 6: every reset value the spec gives. The values of status and fault are the spec's decision
D8. The value of `limit` is the model's own (log entry 3) and is not stated. -/
def Obligations.ResetGivesTheSpecifiedValues : Prop :=
  State.reset.ax = 0 ∧ State.reset.bx = 0 ∧ State.reset.cx = 0 ∧ State.reset.bp = 0 ∧ State.reset.ma = 0 ∧
  sint State.reset.sp = 4096 ∧ sint State.reset.pc = 1 ∧ State.reset.ir = 0 ∧ State.reset.idle = true ∧
  State.reset.status = .halted ∧ State.reset.fault = none ∧
  ∀ a : Int, 0 ≤ a → a ≤ 32767 → memRead a State.reset = .ok 0

/-- The reset state meets the invariant `StateInv`: idle true (10_state.md section 6), Halted with no fault recorded
(the spec's decision D8), and memory in canonical form, which is the model's own choice (log entry 1). -/
def Obligations.ResetMeetsTheInvariant : Prop := StateInv State.reset

/-- Every step keeps the invariant `StateInv`, a form of the model's. Idle true is 10_state.md section 3 and a fault
halts is its section 4; the record's pc and ir rest on the spec's decisions D2 and D16 (R29, R170), its kind on
60_exceptions.md section 1; the canonical form of memory is the model's own choice (log entry 1). -/
def Obligations.StepKeepsTheInvariant : Prop := ∀ s t, StateInv s → step s = .next t → StateInv t

/-- Every transaction of the interface keeps the invariant `StateInv`, a form of the model's, the host's moves
included. Idle true and a fault halts are 10_state.md sections 3 and 4; the record's pc and ir rest on the spec's
decisions D2 and D16, and on D9 and D10, by which no host move touches a faulted state's pc, ir or status but reset
(D8); the canonical form of memory is the model's own choice (log entry 1). -/
def Obligations.TransactionsKeepTheInvariant : Prop := ∀ τ s, StateInv s → StateInv (perform τ s).2

/-! ### The cycle -/

/-- 60_exceptions.md section 4 (R174): where the word at pc decodes, the step is the instruction's execution in the
state with that word in ir. -/
def Obligations.StepRunsTheDecodedInstruction : Prop :=
  ∀ s w i, AboutToFetch s → memRead (uint s.pc) s = .ok w → decode w = .ok i → step s = exec i { s with ir := w }

/-- 60_exceptions.md section 4: the limit check comes first and halts without a fault of its own; the spec's
decision D7. -/
def Obligations.StepHaltsOnTheLimit : Prop :=
  ∀ s, s.status = .running → s.limit ≤ sint s.pc → step s = .next { s with status := .halted }

/-- 60_exceptions.md sections 2 and 3: a fetch outside the storage records SegmentationFault with the old ir; the
spec's decisions D1, D2 and D17. -/
def Obligations.FetchOutsideStorageFaults : Prop :=
  ∀ s, AboutToFetch s → 32768 ≤ uint s.pc → ∃ t, step s = .next t ∧ FaultEntry .segmentationFault s t

/-- 60_exceptions.md sections 2 and 3: a word with a bad register field records InvalidOperand with the word in ir;
the spec's decisions D2 and D16. -/
def Obligations.BadRegisterFieldFaultsTheStep : Prop :=
  ∀ s w, AboutToFetch s → memRead (uint s.pc) s = .ok w → BadRegisterField w →
    ∃ t, step s = .next t ∧ FaultEntry .invalidOperand { s with ir := w } t

/-- 60_exceptions.md section 4 ("when status = Halted the cycle has no step"): the named stops are the model's
(log entry 4), and the step transaction is refused and changes nothing. -/
def Obligations.HaltedCycleHasNoStep : Prop :=
  ∀ s, s.status = .halted →
    (s.fault = none → step s = .fault .haltedNoRun) ∧
    (∀ r, s.fault = some r → step s = .fault (.haltedByFault r.kind)) ∧
    perform .step s = (.refused .notRunning, s)

/-- A Running cycle always has a next state: no step stops and none is refused (60_exceptions.md section 4). -/
def Obligations.RunningStepAnswersNext : Prop := ∀ s, s.status = .running → ∃ t, step s = .next t

/-- 60_exceptions.md R176: a step that leaves Running is a limit halt or a fault; a jump to itself below the limit
runs for ever; and the host has no move that stops a run, but reset. -/
def Obligations.OnlyTheLimitOrAFaultEndsARun : Prop :=
  (∀ s t, s.status = .running → step s = .next t → t.status = .halted →
    (s.limit ≤ sint s.pc ∧ t.fault = s.fault) ∨ ∃ r, t.fault = some r ∧ r.fpc = s.pc) ∧
  (∀ s w tgt, AboutToFetch s → memRead (uint s.pc) s = .ok w → decode w = .ok (.jmp tgt) → uint s.pc = tgt →
    ∀ k, ∃ t, core.run k s = .next t ∧ t.status = .running ∧ t.pc = s.pc) ∧
  (∀ τ s, s.status = .running → τ ≠ .reset → τ ≠ .step → (perform τ s).2 = s)

/-- 60_exceptions.md section 3: an instruction either completes, leaving the cycle's own state alone, or takes the
whole fault entry in the state before it; the spec's decisions D2 and D16. -/
def Obligations.FaultsArePrecise : Prop :=
  ∀ i s, ∃ t, exec i s = .next t ∧ (CycleKept s t ∨ ∃ k, FaultEntry k s t)

/-- 10_state.md R25: a step that fetches leaves the fetched word in ir, no handler writes ir, and ir keeps its value
after the halt. -/
def Obligations.IrHoldsTheFetchedWord : Prop :=
  (∀ i s t, exec i s = .next t → t.ir = s.ir) ∧
  (∀ s w t, AboutToFetch s → memRead (uint s.pc) s = .ok w → step s = .next t → t.ir = w) ∧
  (∀ s t, s.status = .running → s.limit ≤ sint s.pc → step s = .next t → t.ir = s.ir) ∧
  (∀ τ s, s.status = .halted → τ ≠ .reset → (perform τ s).2.ir = s.ir)

/-- 10_state.md R27: idle is true after reset, and nothing but reset reads or writes it: every other transaction
does the same whatever idle is, and leaves it as it is. -/
def Obligations.IdleIsNeitherReadNorWritten : Prop :=
  State.reset.idle = true ∧ (∀ s, (perform .reset s).2.idle = true) ∧
  ∀ τ s b, τ ≠ .reset → perform τ { s with idle := b } = ((perform τ s).1, { (perform τ s).2 with idle := b })

/-- 10_state.md section 4 (R31, which the spec derives): what an instruction does to the registers, the pc and the
memory does not depend on ir, idle, status, fault or limit. -/
def Obligations.HiddenStateIsNeverRead : Prop :=
  ∀ i s s', SameVisible s s' → ∃ t t', exec i s = .next t ∧ exec i s' = .next t' ∧ SameVisible t t'

/-! ### Registers, operands and memory -/

/-- 10_state.md R20: the eight slots by index, each software register holding the last word written to it, and no
slot sharing storage with another. -/
def Obligations.RegistersHaveNoAliases : Prop :=
  (∀ s : State, readSlot 0 s = readReg .ax s ∧ readSlot 1 s = readReg .bx s ∧ readSlot 2 s = readReg .cx s ∧
    readSlot 3 s = readReg .sp s ∧ readSlot 4 s = readReg .bp s ∧ readSlot 5 s = readReg .ma s ∧
    readSlot 6 s = s.pc ∧ readSlot 7 s = s.ir) ∧
  (∀ r q v s, readReg r (writeReg q v s) = if r = q then v else readReg r s) ∧
  (∀ q v s, (writeReg q v s).pc = s.pc ∧ (writeReg q v s).ir = s.ir)

/-- 30_encoding.md R69 and R70: the immediates are zero-extended, so their signed value is the field's number. -/
def Obligations.ImmediatesAreZeroExtended : Prop :=
  (∀ w src s, src8Of w = .ok src → w.getLsbD 11 = false →
    sint (val8 src s) = (w.extractLsb' 3 8).toNat ∧ 0 ≤ sint (val8 src s) ∧ sint (val8 src s) ≤ 255) ∧
  (∀ w src s, src11Of w = .ok src → w.getLsbD 11 = false →
    sint (val11 src s) = (w.extractLsb' 0 11).toNat ∧ 0 ≤ sint (val11 src s) ∧ sint (val11 src s) ≤ 2047)

/-- 20_memory.md sections 3 and 7: a read gives the last word written, every other address is untouched, and an
address without storage faults either way; the spec's decision D1. -/
def Obligations.MemoryReadsTheLastWrite : Prop :=
  ∀ (a : Int) v s,
    (0 ≤ a → a ≤ 32767 → ∃ t, memWrite a v s = .ok t ∧ memRead a t = .ok v ∧ MemKeptBut a s t ∧ OnlyMemory s t) ∧
    (a < 0 ∨ 32768 ≤ a → memRead a s = .error .segmentationFault ∧ memWrite a v s = .error .segmentationFault)

/-- Two memories in canonical form that read the same everywhere are the same data (log entry 1). -/
def Obligations.CanonicalMemoriesAreExtensional : Prop :=
  ∀ m m' : Memory, m.wf = true → m'.wf = true → (∀ a, m.read a = m'.read a) → m = m'

/-! ### Arithmetic and moves -/

/-- 40_arith_move.md R101: nop decodes no operand bit and changes nothing; the cycle advances the pc. -/
def Obligations.NopChangesOnlyThePc : Prop :=
  FormatN 0 .nop ∧ ∀ s, Completes .nop s [] fun t => NextPc s t ∧ MemKept s t

/-- 40_arith_move.md R102, every form. -/
def Obligations.AddWrapsTheExactSum : Prop :=
  FormatA 1 .add ∧
  ∀ src d s, Completes (.add src d) s [d] fun t =>
    readReg d t = wrap16 (sint (readReg d s) + sint (val8 src s)) ∧ NextPc s t ∧ MemKept s t

/-- 40_arith_move.md R103, every form. -/
def Obligations.SubWrapsTheExactDifference : Prop :=
  FormatA 2 .sub ∧
  ∀ src d s, Completes (.sub src d) s [d] fun t =>
    readReg d t = wrap16 (sint (readReg d s) - sint (val8 src s)) ∧ NextPc s t ∧ MemKept s t

/-- 40_arith_move.md section 2, mult, every form; the wrap is the spec's derivation. -/
def Obligations.MultKeepsTheLowHalfOfTheProduct : Prop :=
  FormatA 3 .mult ∧
  ∀ src d s, Completes (.mult src d) s [d] fun t =>
    readReg d t = wrap16 (sint (readReg d s) * sint (val8 src s)) ∧ NextPc s t ∧ MemKept s t

/-- 40_arith_move.md R106, every form, sp and ma as destination included. -/
def Obligations.MovCopiesTheSource : Prop :=
  FormatA 7 .mov ∧
  ∀ src d s, Completes (.mov src d) s [d] fun t => readReg d t = val8 src s ∧ NextPc s t ∧ MemKept s t

/-- 40_arith_move.md R105: quotient toward zero to the destination, remainder to cx (also where cx is the
destination), a zero divisor raises InvalidOperand and writes neither. -/
def Obligations.DivWritesQuotientThenRemainder : Prop :=
  FormatA 4 .div ∧
  ∀ src d s,
    (sint (val8 src s) = 0 → Raises (.div src d) s .invalidOperand) ∧
    (sint (val8 src s) ≠ 0 → Completes (.div src d) s [d, .cx] fun t =>
      (d ≠ .cx → readReg d t = wrap16 (Int.tdiv (sint (readReg d s)) (sint (val8 src s)))) ∧
      t.cx = wrap16 (Int.tmod (sint (readReg d s)) (sint (val8 src s))) ∧ NextPc s t ∧ MemKept s t)

/-- 40_arith_move.md R108: dividend = quotient * divisor + remainder, the remainder smaller than the divisor and
with the dividend's sign; (-32768, -1) gives quotient -32768 and remainder 0; a zero divisor raises
InvalidOperand. -/
def Obligations.DivisionLawHolds : Prop :=
  ∀ src d s,
    (sint (val8 src s) = 0 → Raises (.div src d) s .invalidOperand) ∧
    (sint (val8 src s) ≠ 0 → ∃ t, exec (.div src d) s = .next t ∧
      (sint t.cx).natAbs < (sint (val8 src s)).natAbs ∧ 0 ≤ sint t.cx * sint (readReg d s) ∧
      (¬ (sint (readReg d s) = -32768 ∧ sint (val8 src s) = -1) →
        (d ≠ .cx → sint (readReg d s) = sint (readReg d t) * sint (val8 src s) + sint t.cx) ∧
        (d = .cx → ∃ q, sint (readReg d s) = q * sint (val8 src s) + sint t.cx)) ∧
      (sint (readReg d s) = -32768 ∧ sint (val8 src s) = -1 →
        sint t.cx = 0 ∧ (d ≠ .cx → sint (readReg d t) = -32768)))

/-- 40_arith_move.md section 3 (R107, which the spec derives): add then sub of the same value restores the
destination; where the source is the destination itself, the second operand is the sum and the result is 0. -/
def Obligations.AddThenSubIsTheIdentity : Prop :=
  ∀ src d s, ∃ u t, exec (.add src d) s = .next u ∧ exec (.sub src d) u = .next t ∧
    (src ≠ .reg d → ∀ r, readReg r t = readReg r s) ∧
    (src = .reg d → readReg d t = 0 ∧ RegsKeptBut [d] s t)

/-! ### Stack, load and store -/

/-- 41_stack.md section 2, push, every form; the SegmentationFault is the spec's decision D1, the precise entry its
decisions D2 and D16. -/
def Obligations.PushStoresAtSpThenIncrements : Prop :=
  FormatS 5 .push ∧
  ∀ src s,
    (12288 ≤ sint s.sp → RaisesPrecisely (.push src) s .stackOverflow) ∧
    (sint s.sp < 0 → RaisesPrecisely (.push src) s .segmentationFault) ∧
    (0 ≤ sint s.sp → sint s.sp < 12288 → Completes (.push src) s [.sp] fun t =>
      t.sp = wrap16 (sint s.sp + 1) ∧ memRead (uint s.sp) t = .ok (val11 src s) ∧ MemKeptBut (uint s.sp) s t ∧
      NextPc s t)

/-- 41_stack.md R122 with 60_exceptions.md R163 and R164: the destination check first, then the check for an empty
stack; otherwise the top word goes to the destination and sp moves down. -/
def Obligations.PopReadsBelowSpThenDecrements : Prop :=
  FormatD 6 .pop ∧
  ∀ d s,
    Raises (.pop .sp) s .stackPointerCorruption ∧
    (d ≠ .sp → sint s.sp ≤ 4096 → Raises (.pop d) s .stackUnderflow) ∧
    (d ≠ .sp → 4096 < sint s.sp → Completes (.pop d) s [d, .sp] fun t =>
      memRead (sint s.sp - 1) s = .ok (readReg d t) ∧ t.sp = wrap16 (sint s.sp - 1) ∧ NextPc s t ∧ MemKept s t)

/-- 41_stack.md R123: after a push, a pop to another register in any state that has the same sp and the same word at
the pushed address restores sp and gives the pushed value. -/
def Obligations.PopUndoesPush : Prop :=
  ∀ src d s, d ≠ .sp → 4096 ≤ sint s.sp → sint s.sp < 12288 →
    ∃ u, exec (.push src) s = .next u ∧
      ∀ v, v.sp = u.sp → memRead (uint s.sp) v = memRead (uint s.sp) u →
        ∃ t, exec (.pop d) v = .next t ∧ CycleKept v t ∧ t.sp = s.sp ∧ readReg d t = val11 src s

/-- 41_stack.md section 3 (R124, which the spec derives): from a state with sp in [4096, 12288] an instruction that
takes sp outside is an add, sub, mult, div, mov or load with destination sp. -/
def Obligations.OnlyAluAndLoadMoveSpOutOfBounds : Prop :=
  ∀ i s t, SpInBounds s → exec i s = .next t →
    SpInBounds t ∨ i = .load .sp ∨
    ∃ src, i = .add src .sp ∨ i = .sub src .sp ∨ i = .mult src .sp ∨ i = .div src .sp ∨ i = .mov src .sp

/-- 41_stack.md section 3 (R125, which the spec derives): from sp = 4096 up to 8192 pushes complete, each word at its
address; after 8192 the next one raises StackOverflow. -/
def Obligations.EightThousandPushesFillTheStack : Prop :=
  ∀ src s n, sint s.sp = 4096 → n ≤ 8192 →
    ∃ t, repeatExec (.push src) n s = .next t ∧ CycleKept s t ∧ sint t.sp = 4096 + n ∧ RegsKeptBut [.sp] s t ∧
      (∀ k : Nat, k < n → memRead (4096 + k) t =
        .ok (if src = .reg .sp then wrap16 (4096 + k) else val11 src s)) ∧
      (∀ a : Int, a < 4096 ∨ 4096 + n ≤ a → memRead a t = memRead a s) ∧
      (n = 8192 → RaisesPrecisely (.push src) t .stackOverflow)

/-- 42_load_store.md section on load, every destination; the SegmentationFault is the spec's decision D1. -/
def Obligations.LoadReadsAtMa : Prop :=
  FormatD 8 .load ∧
  ∀ d s,
    (32768 ≤ uint s.ma → RaisesPrecisely (.load d) s .segmentationFault) ∧
    (uint s.ma < 32768 → Completes (.load d) s [d] fun t =>
      memRead (uint s.ma) s = .ok (readReg d t) ∧ NextPc s t ∧ MemKept s t)

/-- 42_load_store.md section on store, every form; the address is the meaning's own, `effAddr`; the
SegmentationFault is the spec's decision D1. -/
def Obligations.StoreWritesAtMa : Prop :=
  FormatS 9 .store ∧
  ∀ src s, effAddr s = uint s.ma ∧
    (32768 ≤ uint s.ma → RaisesPrecisely (.store src) s .segmentationFault) ∧
    (uint s.ma < 32768 → Completes (.store src) s [] fun t =>
      memRead (effAddr s) t = .ok (val11 src s) ∧ MemKeptBut (effAddr s) s t ∧ NextPc s t)

/-- 20_memory.md section 7 (R52, which the spec derives): the word a store writes at the next pc is the word the next
step fetches and runs. -/
def Obligations.StoredWordIsFetchedNext : Prop :=
  ∀ s w src, AboutToFetch s → memRead (uint s.pc) s = .ok w → decode w = .ok (.store src) →
    effAddr s = uint (wrap16 (sint s.pc + 1)) → effAddr s < 32768 → sint s.pc + 1 < s.limit →
    ∃ t, step s = .next t ∧ AboutToFetch t ∧ memRead (uint t.pc) t = .ok (val11 src s) ∧
      ∀ i, decode (val11 src s) = .ok i → step t = exec i { t with ir := val11 src s }

/-! ### Control transfer -/

/-- 43_control.md R140: jmp, its target any 12-bit number. -/
def Obligations.JmpGoesToTheTarget : Prop :=
  FormatB 10 .jmp ∧
  ∀ t s, Completes (.jmp t) s [] fun u => u.pc = wrap16 t ∧ MemKept s u

/-- 43_control.md R141, R142 and R143: taken to the target where cx meets the condition, else to the next word. -/
def Obligations.ConditionalBranchesTestCx : Prop :=
  FormatB 11 .jnz ∧ FormatB 12 .jz ∧ FormatB 13 .jn ∧
  ∀ t s,
    (Completes (.jnz t) s [] fun u => MemKept s u ∧
      (sint s.cx ≠ 0 → u.pc = wrap16 t) ∧ (sint s.cx = 0 → NextPc s u)) ∧
    (Completes (.jz t) s [] fun u => MemKept s u ∧
      (sint s.cx = 0 → u.pc = wrap16 t) ∧ (sint s.cx ≠ 0 → NextPc s u)) ∧
    (Completes (.jn t) s [] fun u => MemKept s u ∧
      (sint s.cx < 0 → u.pc = wrap16 t) ∧ (0 ≤ sint s.cx → NextPc s u))

/-- 43_control.md R148: after the step of a taken branch the pc is the decoded 12-bit target, and after the step of a
branch not taken the branch's address plus 1. -/
def Obligations.BranchesLandOnTheirTarget : Prop :=
  ∀ s w, AboutToFetch s → memRead (uint s.pc) s = .ok w → opcodeField w ∈ [10, 11, 12, 13] →
    ∃ t, step s = .next t ∧
      (opcodeField w = 10 ∨ (opcodeField w = 11 ∧ s.cx ≠ 0) ∨ (opcodeField w = 12 ∧ s.cx = 0) ∨
        (opcodeField w = 13 ∧ sint s.cx < 0) → uint t.pc = (w.extractLsb' 0 12).toNat) ∧
      ((opcodeField w = 11 ∧ s.cx = 0) ∨ (opcodeField w = 12 ∧ s.cx ≠ 0) ∨ (opcodeField w = 13 ∧ 0 ≤ sint s.cx) →
        NextPc s t)

/-- 43_control.md section 2, call; the SegmentationFault is the spec's decision D1, the precise entry its decisions
D2 and D16. -/
def Obligations.CallSavesItsOwnAddress : Prop :=
  FormatB 14 .call ∧
  ∀ t s,
    (12288 ≤ sint s.sp → RaisesPrecisely (.call t) s .stackOverflow) ∧
    (sint s.sp < 0 → RaisesPrecisely (.call t) s .segmentationFault) ∧
    (0 ≤ sint s.sp → sint s.sp < 12288 → Completes (.call t) s [.sp] fun u =>
      u.sp = wrap16 (sint s.sp + 1) ∧ memRead (uint s.sp) u = .ok s.pc ∧ MemKeptBut (uint s.sp) s u ∧
      u.pc = wrap16 t)

/-- 43_control.md section 2, ret: an empty stack raises StackOverflow, the spec's decision D4; otherwise the pc is the
popped word plus 1. -/
def Obligations.RetResumesAfterThePoppedAddress : Prop :=
  FormatN 15 .ret ∧
  ∀ s,
    (sint s.sp ≤ 4096 → RaisesPrecisely .ret s .stackOverflow) ∧
    (4096 < sint s.sp → Completes .ret s [.sp] fun t =>
      t.sp = wrap16 (sint s.sp - 1) ∧ MemKept s t ∧
      ∃ v, memRead (sint s.sp - 1) s = .ok v ∧ t.pc = wrap16 (sint v + 1))

/-- 43_control.md R147: after a call, a ret in any state that has the same sp and the same saved word resumes at the
instruction after the call. -/
def Obligations.RetUndoesCall : Prop :=
  ∀ tgt s, 4096 ≤ sint s.sp → sint s.sp < 12288 →
    ∃ u, exec (.call tgt) s = .next u ∧
      ∀ v, v.sp = u.sp → memRead (uint s.sp) v = memRead (uint s.sp) u →
        ∃ t, exec .ret v = .next t ∧ CycleKept v t ∧ t.sp = s.sp ∧ NextPc s t

/-! ### Encoding -/

/-- Every well-formed instruction, with every operand its encoding admits, is what its word decodes to
(30_encoding.md sections 2, 4 and 6). -/
def Obligations.DecodeInvertsEncode : Prop := ∀ i : Instr, i.wf = true → decode (encode i) = .ok i

/-- Every word that decodes is, but for its ignored bits, the word of the well-formed instruction it decodes to
(30_encoding.md sections 2 to 4; ignored bits are the spec's decision D5). -/
def Obligations.EncodeInvertsDecode : Prop :=
  ∀ w i, decode w = .ok i → i.wf = true ∧ encode i = w &&& significantBits w

/-- 30_encoding.md section 3: two words that differ only in ignored bits decode alike; the spec's decision D5. -/
def Obligations.IgnoredBitsHaveNoEffect : Prop :=
  ∀ w w' : Word, w &&& significantBits w = w' &&& significantBits w' → decode w = decode w'

/-- 30_encoding.md R71: decoding raises InvalidOperand exactly where a register field that the class decodes holds 6
or 7. -/
def Obligations.InvalidOperandExactlyOnBadFields : Prop :=
  ∀ w, decode w = .error .invalidOperand ↔ BadRegisterField w

/-- 30_encoding.md R77 and 60_exceptions.md R165: no word has an illegal opcode and no step records IllegalOpcode. -/
def Obligations.IllegalOpcodeIsNeverRaised : Prop :=
  (∀ w, decode w ≠ .error .illegalOpcode) ∧
  (∀ i s t, exec i s = .next t → ∀ r, t.fault = some r → t.fault = s.fault ∨ r.kind ≠ .illegalOpcode) ∧
  (∀ s t, step s = .next t → ∀ r, t.fault = some r → t.fault = s.fault ∨ r.kind ≠ .illegalOpcode)

/-- Words written out from the spec's encodings (95_test_vectors.md section 2.1) decode to their instructions. -/
def Obligations.SpecWordsDecode : Prop :=
  decode 0x0FFF = .ok .nop ∧ decode 0x1018 = .ok (.add (.imm8 3) .ax) ∧ decode 0x1FED = .ok (.add (.reg .ma) .ma) ∧
  decode 0x57FF = .ok (.push (.imm11 2047)) ∧ decode 0x6FF8 = .ok (.pop .ax) ∧ decode 0x8005 = .ok (.load .ma) ∧
  decode 0xAC00 = .ok (.jmp 3072) ∧ decode 0xE014 = .ok (.call 20) ∧ decode 0xFFFF = .ok .ret ∧
  decode 0x1835 = .error .invalidOperand ∧ decode 0x6007 = .error .invalidOperand

/-- The fetch hook of the host runs exactly the word it is given, as the very next step, in every state (log
entry 5). -/
def Obligations.PlacedWordRunsNext : Prop :=
  ∀ s nbits w i, decodeTableWord nbits w = some i →
    step (s.withFetchWord nbits w) =
      exec i { s.withFetchWord nbits w with ir := BitVec.ofNat 16 (w % 2 ^ nbits) } ∧
    RegsKeptBut [] s (s.withFetchWord nbits w) ∧ (s.withFetchWord nbits w).ir = s.ir ∧
    MemKeptBut (uint (s.withFetchWord nbits w).pc) s (s.withFetchWord nbits w)

/-! ### The host's transactions -/

/-- 60_exceptions.md section 4: the run command is accepted only Halted with no fault; then it writes pc, limit and
status and nothing else; else it changes nothing. The spec's decisions D8 and D9. -/
def Obligations.RunCommandStartsARun : Prop :=
  ∀ start limit s,
    (s.status = .halted → NoFault s →
      perform (.run start limit) s = (.done, { s with pc := start, limit := limit, status := .running })) ∧
    (s.status = .halted → s.fault ≠ none → perform (.run start limit) s = (.refused .faultRecorded, s)) ∧
    (s.status = .running → perform (.run start limit) s = (.refused .running, s))

/-- 70_reset_and_hazards.md section 3: while Halted the host writes and reads memory in [0, 32767] and reads any slot;
while Running it may do none of these. The spec's decisions D10 and D19; the refusal of a read outside the storage is
the model's (log entry 6). -/
def Obligations.HostPathActsOnlyWhileHalted : Prop :=
  ∀ s (a : Int) w (i : Fin 8),
    (s.status = .halted → 0 ≤ a → a ≤ 32767 →
      (∃ t, perform (.hostWrite a w) s = (.done, t) ∧ OnlyMemory s t ∧ memRead a t = .ok w ∧ MemKeptBut a s t) ∧
      ∃ v, memRead a s = .ok v ∧ perform (.hostRead a) s = (.word v, s)) ∧
    (s.status = .halted → perform (.regRead i) s = (.word (readSlot i s), s)) ∧
    (s.status = .halted → a < 0 ∨ 32768 ≤ a →
      perform (.hostWrite a w) s = (.refused .outOfRange, s) ∧ perform (.hostRead a) s = (.refused .outOfRange, s)) ∧
    (s.status = .running →
      perform (.hostWrite a w) s = (.refused .running, s) ∧ perform (.hostRead a) s = (.refused .running, s) ∧
      perform (.regRead i) s = (.refused .running, s))

/-- 60_exceptions.md section 3: a recorded fault stays recorded, with the cycle Halted, under every transaction but
reset, which clears it. The spec's decision D9. -/
def Obligations.OnlyResetClearsAFault : Prop :=
  ∀ τ s r, s.fault = some r → s.status = .halted →
    (τ ≠ .reset → (perform τ s).2.fault = some r ∧ (perform τ s).2.status = .halted ∧ (perform τ s).2.pc = s.pc ∧
      ∀ q, readReg q (perform τ s).2 = readReg q s) ∧
    (τ = .reset → (perform τ s).2 = State.reset ∧ (perform τ s).2.fault = none)

/-- 70_reset_and_hazards.md section 3: the loader puts word k at address 1 + k and changes nothing else, for every
program that fits the code segment. The spec's decision D19. -/
def Obligations.LoaderPlacesTheProgram : Prop :=
  ∀ ws s, s.status = .halted → ws.length ≤ 4095 →
    ∃ t, loadProgram ws s = .ok t ∧ OnlyMemory s t ∧
      (∀ (k : Nat) (h : k < ws.length), memRead (1 + k) t = .ok ws[k]) ∧
      ∀ a : Int, a < 1 ∨ 1 + ws.length ≤ a → memRead a t = memRead a s

/-- 60_exceptions.md sections 1 and 6: the status port shows the status, the code of the recorded kind (the spec's
decision D3), fpc and fir. Code 0 means no fault; that fpc and fir are then absent is the model's (log entry 8). -/
def Obligations.StatusPortShowsTheRecord : Prop :=
  ∀ s,
    (∀ k fpc fir, s.fault = some ⟨k, fpc, fir⟩ →
      perform .status s = (.status ⟨s.status, faultCode k, some fpc, some fir⟩, s)) ∧
    (s.fault = none → perform .status s = (.status ⟨s.status, 0, none, none⟩, s)) ∧
    [FaultKind.stackOverflow, .stackUnderflow, .stackPointerCorruption, .illegalOpcode, .invalidOperand,
      .segmentationFault].map faultCode = [1, 2, 3, 4, 5, 6]

/-- 60_exceptions.md section 6: a step that executes shows the six software registers, pc and, where sp is above the
stack base, the word on top of the stack; a limit halt shows nothing. The spec's decision D14; that a step that faults
in its fetch or decode shows a trace too is the model's (log entry 7). -/
def Obligations.TraceShowsTheStateAfterTheStep : Prop :=
  ∀ s, s.status = .running →
    (s.limit ≤ sint s.pc → ∃ t, perform .step s = (.stepped none, t)) ∧
    (sint s.pc < s.limit → ∃ t v, step s = .next t ∧ perform .step s = (.stepped (some v), t) ∧
      v.ax = t.ax ∧ v.bx = t.bx ∧ v.cx = t.cx ∧ v.sp = t.sp ∧ v.bp = t.bp ∧ v.ma = t.ma ∧ v.pc = t.pc ∧
      (sint t.sp ≤ 4096 → v.top = none) ∧
      (4096 < sint t.sp → ∃ w, memRead (sint t.sp - 1) t = .ok w ∧ v.top = some w))
end

