-- ==== Sys2Proof/Laws/Decode.lean ====
section
/-! SUPPORT. The field extractions as arithmetic on the number a word is, and the number a concatenation is. -/

namespace Sys2Proof

theorem and_low_mask (n k : Nat) : n &&& (2 ^ k - 1) = n % 2 ^ k := Nat.and_two_pow_sub_one_eq_mod n k

theorem opcodeOf_eq (w : Word) : opcodeOf w = w.toNat / 4096 := by
  have := w.isLt
  have h := and_low_mask (w.toNat / 4096) 4
  simp only [opcodeOf, BitVec.toNat_and, BitVec.toNat_ushiftRight, Nat.shiftRight_eq_div_pow, BitVec.toNat_ofNat]
  norm_num at h ⊢
  omega

theorem modeFlagOf_eq (w : Word) : modeFlagOf w = w.toNat / 2048 % 2 := by
  have h := and_low_mask (w.toNat / 2048) 1
  simp only [modeFlagOf, BitVec.toNat_and, BitVec.toNat_ushiftRight, Nat.shiftRight_eq_div_pow, BitVec.toNat_ofNat]
  norm_num at h ⊢

theorem immediate8Of_eq (w : Word) : immediate8Of w = w.toNat / 8 % 256 := by
  have h := and_low_mask (w.toNat / 8) 8
  simp only [immediate8Of, BitVec.toNat_and, BitVec.toNat_ushiftRight, Nat.shiftRight_eq_div_pow, BitVec.toNat_ofNat]
  norm_num at h ⊢
  exact h

theorem immediate11Of_eq (w : Word) : immediate11Of w = w.toNat % 2048 := by
  have h := and_low_mask w.toNat 11
  simp only [immediate11Of, BitVec.toNat_and, BitVec.toNat_ofNat]
  norm_num at h ⊢
  exact h

theorem srcOf_eq (w : Word) : srcOf w = w.toNat / 8 % 8 := by
  have h := and_low_mask (w.toNat / 8) 3
  simp only [srcOf, BitVec.toNat_and, BitVec.toNat_ushiftRight, Nat.shiftRight_eq_div_pow, BitVec.toNat_ofNat]
  norm_num at h ⊢
  exact h

theorem dstOf_eq (w : Word) : dstOf w = w.toNat % 8 := by
  have h := and_low_mask w.toNat 3
  simp only [dstOf, BitVec.toNat_and, BitVec.toNat_ofNat]
  norm_num at h ⊢
  exact h

theorem target12Of_eq (w : Word) : target12Of w = w.toNat % 4096 := by
  have h := and_low_mask w.toNat 12
  simp only [target12Of, BitVec.toNat_and, BitVec.toNat_ofNat]
  norm_num at h ⊢
  exact h

/-- The number a concatenation is. -/
theorem toNat_append_eq {n m : Nat} (x : BitVec n) (y : BitVec m) :
    (x ++ y).toNat = x.toNat * 2 ^ m + y.toNat := by
  rw [BitVec.toNat_append, ← Nat.shiftLeft_add_eq_or_of_lt y.isLt, Nat.shiftLeft_eq]

/-- A register's 3 bits are read back as that register. -/
@[simp] theorem checkReg_regBits (r : Reg) : checkReg (regBits r).toNat = .ok r := by cases r <;> rfl

/-- A field of 6 or 7 names no software register. -/
theorem checkReg_bad {n : Nat} (h : 6 ≤ n) : checkReg n = .error .invalidOperand := by
  match n, h with
  | n + 6, _ => rfl

/-- Every smaller field names one. -/
theorem checkReg_ok {n : Nat} (h : n < 6) : ∃ r, checkReg n = .ok r ∧ (regBits r).toNat = n := by
  match n, h with
  | 0, _ => exact ⟨.ax, rfl, rfl⟩
  | 1, _ => exact ⟨.bx, rfl, rfl⟩
  | 2, _ => exact ⟨.cx, rfl, rfl⟩
  | 3, _ => exact ⟨.sp, rfl, rfl⟩
  | 4, _ => exact ⟨.bp, rfl, rfl⟩
  | 5, _ => exact ⟨.ma, rfl, rfl⟩

/-- A checked field raises nothing but InvalidOperand, and exactly for 6 and above. -/
theorem checkReg_error_iff (n : Nat) (k : FaultKind) :
    checkReg n = .error k ↔ k = .invalidOperand ∧ 6 ≤ n := by
  by_cases h : 6 ≤ n
  · rw [checkReg_bad h]
    simp [h, eq_comm]
  · obtain ⟨r, hr, _⟩ := checkReg_ok (Nat.lt_of_not_le h)
    simp [hr, h]

/-- A field that names a register is that register's 3 bits. -/
theorem eq_regBits_of_checkReg {n : Nat} {r : Reg} (h : checkReg n = .ok r) : n = (regBits r).toNat := by
  by_cases h6 : 6 ≤ n
  · rw [checkReg_bad h6] at h
    cases h
  · obtain ⟨q, hq, hb⟩ := checkReg_ok (Nat.lt_of_not_le h6)
    rw [← Except.ok.inj (hq.symm.trans h), hb]

/-- A class-A source raises InvalidOperand exactly in mode 1 with a register field of 6 or 7. -/
theorem src8Of_error_iff (w : Word) (k : FaultKind) :
    src8Of w = .error k ↔ k = .invalidOperand ∧ modeFlagOf w = 1 ∧ 6 ≤ srcOf w := by
  by_cases hm : modeFlagOf w = 1
  · have h := checkReg_error_iff (srcOf w) k
    rw [src8Of, if_pos hm]
    cases hc : checkReg (srcOf w) <;> rw [hc] at h <;> simp [Except.map, hm, ← h]
  · simp [src8Of, hm]

/-- The same of a class-S source. -/
theorem src11Of_error_iff (w : Word) (k : FaultKind) :
    src11Of w = .error k ↔ k = .invalidOperand ∧ modeFlagOf w = 1 ∧ 6 ≤ srcOf w := by
  by_cases hm : modeFlagOf w = 1
  · have h := checkReg_error_iff (srcOf w) k
    rw [src11Of, if_pos hm]
    cases hc : checkReg (srcOf w) <;> rw [hc] at h <;> simp [Except.map, hm, ← h]
  · simp [src11Of, hm]

end Sys2Proof
end

