-- ==== Sys2Proof/Laws/State.lean ====
section
/-! SUPPORT. What each update of the state leaves in each field, so that no later proof unfolds a record update. -/

namespace Sys2Proof.Machine

/-! ### writeReg -/

theorem readReg_writeReg (r q : Reg) (v : Word) (s : State) :
    readReg r (writeReg q v s) = if r = q then v else readReg r s := by
  cases r <;> cases q <;> rfl

@[simp] theorem readReg_writeReg_self (r : Reg) (v : Word) (s : State) : readReg r (writeReg r v s) = v := by
  cases r <;> rfl

theorem readReg_writeReg_of_ne {r q : Reg} (h : r ≠ q) (v : Word) (s : State) :
    readReg r (writeReg q v s) = readReg r s := by
  rw [readReg_writeReg, if_neg h]

@[simp] theorem writeReg_pc (r : Reg) (v : Word) (s : State) : (writeReg r v s).pc = s.pc := by cases r <;> rfl
@[simp] theorem writeReg_ir (r : Reg) (v : Word) (s : State) : (writeReg r v s).ir = s.ir := by cases r <;> rfl
@[simp] theorem writeReg_mem (r : Reg) (v : Word) (s : State) : (writeReg r v s).mem = s.mem := by cases r <;> rfl
@[simp] theorem writeReg_idle (r : Reg) (v : Word) (s : State) : (writeReg r v s).idle = s.idle := by cases r <;> rfl
@[simp] theorem writeReg_status (r : Reg) (v : Word) (s : State) : (writeReg r v s).status = s.status := by
  cases r <;> rfl
@[simp] theorem writeReg_fault (r : Reg) (v : Word) (s : State) : (writeReg r v s).fault = s.fault := by
  cases r <;> rfl
@[simp] theorem writeReg_limit (r : Reg) (v : Word) (s : State) : (writeReg r v s).limit = s.limit := by
  cases r <;> rfl

/-! ### The register fields by name -/

theorem sp_eq_readReg (s : State) : s.sp = readReg .sp s := rfl
theorem cx_eq_readReg (s : State) : s.cx = readReg .cx s := rfl
theorem ma_eq_readReg (s : State) : s.ma = readReg .ma s := rfl

/-! ### setPc -/

@[simp] theorem setPc_pc (v : Word) (s : State) : (setPc v s).pc = v := rfl
@[simp] theorem readReg_setPc (r : Reg) (v : Word) (s : State) : readReg r (setPc v s) = readReg r s := by
  cases r <;> rfl
@[simp] theorem setPc_ir (v : Word) (s : State) : (setPc v s).ir = s.ir := rfl
@[simp] theorem setPc_mem (v : Word) (s : State) : (setPc v s).mem = s.mem := rfl
@[simp] theorem setPc_idle (v : Word) (s : State) : (setPc v s).idle = s.idle := rfl
@[simp] theorem setPc_status (v : Word) (s : State) : (setPc v s).status = s.status := rfl
@[simp] theorem setPc_fault (v : Word) (s : State) : (setPc v s).fault = s.fault := rfl
@[simp] theorem setPc_limit (v : Word) (s : State) : (setPc v s).limit = s.limit := rfl

/-! ### latchIr -/

@[simp] theorem latchIr_ir (w : Word) (s : State) : (latchIr w s).ir = w := rfl
@[simp] theorem readReg_latchIr (r : Reg) (w : Word) (s : State) : readReg r (latchIr w s) = readReg r s := by
  cases r <;> rfl
@[simp] theorem latchIr_pc (w : Word) (s : State) : (latchIr w s).pc = s.pc := rfl
@[simp] theorem latchIr_mem (w : Word) (s : State) : (latchIr w s).mem = s.mem := rfl
@[simp] theorem latchIr_idle (w : Word) (s : State) : (latchIr w s).idle = s.idle := rfl
@[simp] theorem latchIr_status (w : Word) (s : State) : (latchIr w s).status = s.status := rfl
@[simp] theorem latchIr_fault (w : Word) (s : State) : (latchIr w s).fault = s.fault := rfl
@[simp] theorem latchIr_limit (w : Word) (s : State) : (latchIr w s).limit = s.limit := rfl

/-! ### takeFault -/

@[simp] theorem takeFault_status (k : FaultKind) (s : State) : (takeFault k s).status = .halted := rfl
@[simp] theorem takeFault_fault (k : FaultKind) (s : State) : (takeFault k s).fault = some ⟨k, s.pc, s.ir⟩ := rfl
@[simp] theorem readReg_takeFault (r : Reg) (k : FaultKind) (s : State) : readReg r (takeFault k s) = readReg r s := by
  cases r <;> rfl
@[simp] theorem takeFault_pc (k : FaultKind) (s : State) : (takeFault k s).pc = s.pc := rfl
@[simp] theorem takeFault_ir (k : FaultKind) (s : State) : (takeFault k s).ir = s.ir := rfl
@[simp] theorem takeFault_mem (k : FaultKind) (s : State) : (takeFault k s).mem = s.mem := rfl
@[simp] theorem takeFault_idle (k : FaultKind) (s : State) : (takeFault k s).idle = s.idle := rfl
@[simp] theorem takeFault_limit (k : FaultKind) (s : State) : (takeFault k s).limit = s.limit := rfl

/-! ### haltOnLimit -/

@[simp] theorem haltOnLimit_status (s : State) : (haltOnLimit s).status = .halted := rfl
@[simp] theorem readReg_haltOnLimit (r : Reg) (s : State) : readReg r (haltOnLimit s) = readReg r s := by
  cases r <;> rfl
@[simp] theorem haltOnLimit_pc (s : State) : (haltOnLimit s).pc = s.pc := rfl
@[simp] theorem haltOnLimit_ir (s : State) : (haltOnLimit s).ir = s.ir := rfl
@[simp] theorem haltOnLimit_mem (s : State) : (haltOnLimit s).mem = s.mem := rfl
@[simp] theorem haltOnLimit_idle (s : State) : (haltOnLimit s).idle = s.idle := rfl
@[simp] theorem haltOnLimit_fault (s : State) : (haltOnLimit s).fault = s.fault := rfl
@[simp] theorem haltOnLimit_limit (s : State) : (haltOnLimit s).limit = s.limit := rfl

/-! ### advancePc and branchTo -/

@[simp] theorem advancePc_pc (s : State) : (advancePc s).pc = wrap16 (sint s.pc + 1) := rfl
@[simp] theorem readReg_advancePc (r : Reg) (s : State) : readReg r (advancePc s) = readReg r s := by cases r <;> rfl
@[simp] theorem advancePc_ir (s : State) : (advancePc s).ir = s.ir := rfl
@[simp] theorem advancePc_mem (s : State) : (advancePc s).mem = s.mem := rfl
@[simp] theorem advancePc_idle (s : State) : (advancePc s).idle = s.idle := rfl
@[simp] theorem advancePc_status (s : State) : (advancePc s).status = s.status := rfl
@[simp] theorem advancePc_fault (s : State) : (advancePc s).fault = s.fault := rfl
@[simp] theorem advancePc_limit (s : State) : (advancePc s).limit = s.limit := rfl

@[simp] theorem branchTo_pc (t : Nat) (s : State) : (branchTo t s).pc = wrap16 ((t : Int) - 1) := rfl
@[simp] theorem readReg_branchTo (r : Reg) (t : Nat) (s : State) : readReg r (branchTo t s) = readReg r s := by
  cases r <;> rfl
@[simp] theorem branchTo_ir (t : Nat) (s : State) : (branchTo t s).ir = s.ir := rfl
@[simp] theorem branchTo_mem (t : Nat) (s : State) : (branchTo t s).mem = s.mem := rfl
@[simp] theorem branchTo_idle (t : Nat) (s : State) : (branchTo t s).idle = s.idle := rfl
@[simp] theorem branchTo_status (t : Nat) (s : State) : (branchTo t s).status = s.status := rfl
@[simp] theorem branchTo_fault (t : Nat) (s : State) : (branchTo t s).fault = s.fault := rfl
@[simp] theorem branchTo_limit (t : Nat) (s : State) : (branchTo t s).limit = s.limit := rfl

end Sys2Proof.Machine
end

