-- ==== Sys2Proof/Laws/Memory.lean ====
section
/-! SUPPORT. The laws of memory: a read after a write, the frame of a write, and the canonical form, which every
write keeps. -/

namespace Sys2Proof.Machine

/-! ### Reads of insert, erase and write, on any list -/

theorem Memory.read_insert (m : Memory) (a b : Nat) (v : Word) :
    (m.insert a v).read b = if b = a then v else m.read b := by
  induction m with
  | nil => simp only [Memory.insert, Memory.read]
  | cons c m ih =>
    obtain ⟨c, u⟩ := c
    simp only [Memory.insert]
    split
    · simp only [Memory.read]
    · split
      · next h => subst h; simp only [Memory.read]; split <;> rfl
      · next h =>
        simp only [Memory.read, ih]
        split
        · next hb => subst hb; rw [if_neg (fun e => h e.symm)]
        · rfl

theorem Memory.read_erase (m : Memory) (a b : Nat) :
    (m.erase a).read b = if b = a then Memory.unlisted else m.read b := by
  induction m with
  | nil => simp [Memory.erase, Memory.read]
  | cons c m ih =>
    obtain ⟨c, u⟩ := c
    unfold Memory.erase at ih ⊢
    rw [List.filter_cons]
    split
    · next h =>
      simp only [decide_eq_true_eq] at h
      simp only [Memory.read, ih]
      split
      · next hb => subst hb; rw [if_neg h]
      · rfl
    · next h =>
      simp only [decide_eq_true_eq, not_not] at h
      rw [ih, Memory.read]
      split
      · rfl
      · next hb => rw [if_neg (by omega)]

/-- A read after a write: the word written, or, elsewhere, what stood there. -/
theorem Memory.read_write (m : Memory) (a b : Nat) (v : Word) :
    (m.write a v).read b = if b = a then v else m.read b := by
  unfold Memory.write
  split
  · next h => rw [Memory.read_erase, h]
  · rw [Memory.read_insert]

/-! ### The canonical form -/

theorem Memory.wf_cons {a : Nat} {v : Word} {m : Memory} :
    Memory.wf ((a, v) :: m) = true ↔
      a < Config.memWords ∧ v ≠ Memory.unlisted ∧ (∀ c ∈ m, a < c.1) ∧ Memory.wf m = true := by
  simp [Memory.wf, and_assoc]

theorem Memory.mem_insert {m : Memory} {a : Nat} {v : Word} {c : Nat × Word} (h : c ∈ m.insert a v) :
    c = (a, v) ∨ c ∈ m := by
  induction m with
  | nil => simpa [Memory.insert] using h
  | cons d m ih =>
    obtain ⟨d, u⟩ := d
    simp only [Memory.insert] at h
    split at h
    · simpa using h
    · split at h
      · rw [List.mem_cons] at h
        exact h.imp_right (List.mem_cons_of_mem _)
      · rw [List.mem_cons] at h
        rcases h with h | h
        · exact .inr (h ▸ List.mem_cons_self ..)
        · exact (ih h).imp_right (List.mem_cons_of_mem _)

theorem Memory.wf_insert {m : Memory} {a : Nat} {v : Word} (hm : m.wf = true) (ha : a < Config.memWords)
    (hv : v ≠ Memory.unlisted) : (m.insert a v).wf = true := by
  induction m with
  | nil => simp [Memory.insert, Memory.wf, ha, hv]
  | cons c m ih =>
    obtain ⟨c, u⟩ := c
    obtain ⟨hc, hu, hlt, hw⟩ := Memory.wf_cons.mp hm
    simp only [Memory.insert]
    split
    · next h =>
      refine Memory.wf_cons.mpr ⟨ha, hv, fun d hd => ?_, hm⟩
      rcases List.mem_cons.mp hd with rfl | hd
      · exact h
      · exact h.trans (hlt d hd)
    · split
      · next h => subst h; exact Memory.wf_cons.mpr ⟨ha, hv, hlt, hw⟩
      · refine Memory.wf_cons.mpr ⟨hc, hu, fun d hd => ?_, ih hw⟩
        rcases Memory.mem_insert hd with rfl | hd
        · simp only; omega
        · exact hlt d hd

theorem Memory.wf_erase {m : Memory} (hm : m.wf = true) (a : Nat) : (m.erase a).wf = true := by
  induction m with
  | nil => rfl
  | cons c m ih =>
    obtain ⟨c, u⟩ := c
    obtain ⟨hc, hu, hlt, hw⟩ := Memory.wf_cons.mp hm
    unfold Memory.erase at ih ⊢
    rw [List.filter_cons]
    split
    · exact Memory.wf_cons.mpr ⟨hc, hu, fun d hd => hlt d (List.mem_filter.mp hd).1, ih hw⟩
    · exact ih hw

/-- Every write at an address with storage keeps the canonical form. -/
theorem Memory.wf_write {m : Memory} {a : Nat} (hm : m.wf = true) (ha : a < Config.memWords) (v : Word) :
    (m.write a v).wf = true := by
  unfold Memory.write
  split
  · exact Memory.wf_erase hm a
  · next h => exact Memory.wf_insert hm ha h

theorem reset_mem_wf : State.reset.mem.wf = true := rfl

/-! ### Accesses -/

theorem backed_iff (a : Int) : backed a = true ↔ 0 ≤ a ∧ a < 32768 := by
  cases a with
  | ofNat n =>
    rw [backed, decide_eq_true_eq, Config.memWords, Int.ofNat_eq_natCast]
    omega
  | negSucc n =>
    rw [backed]
    have := Int.negSucc_lt_zero n
    constructor
    · exact fun h => absurd h Bool.false_ne_true
    · omega

theorem memRead_backed {a : Int} (h : 0 ≤ a) (h' : a < 32768) (s : State) :
    memRead a s = .ok (s.mem.read a.toNat) := by
  rw [memRead, if_pos ((backed_iff a).mpr ⟨h, h'⟩)]

theorem memRead_unbacked {a : Int} (h : ¬ (0 ≤ a ∧ a < 32768)) (s : State) :
    memRead a s = .error .segmentationFault := by
  rw [memRead, if_neg (mt (backed_iff a).mp h)]

theorem memWrite_backed {a : Int} (h : 0 ≤ a) (h' : a < 32768) (v : Word) (s : State) :
    memWrite a v s = .ok { s with mem := s.mem.write a.toNat v } := by
  rw [memWrite, if_pos ((backed_iff a).mpr ⟨h, h'⟩)]

theorem memWrite_unbacked {a : Int} (h : ¬ (0 ≤ a ∧ a < 32768)) (v : Word) (s : State) :
    memWrite a v s = .error .segmentationFault := by
  rw [memWrite, if_neg (mt (backed_iff a).mp h)]

/-- A read depends on the memory alone. -/
theorem memRead_congr {s t : State} (h : t.mem = s.mem) (a : Int) : memRead a t = memRead a s := by
  rw [memRead, memRead, h]

/-- Everything a memory write that completes can do. -/
theorem memWrite_ok {a : Int} {v : Word} {s t : State} (h : memWrite a v s = .ok t) :
    (0 ≤ a ∧ a < 32768) ∧ t = { s with mem := s.mem.write a.toNat v } := by
  unfold memWrite at h
  split at h
  · next hb =>
    injection h with h
    exact ⟨(backed_iff a).mp hb, h.symm⟩
  · contradiction

/-- A memory write keeps the canonical form of the state's memory. -/
theorem memWrite_keeps_wf {a : Int} {v : Word} {s t : State} (h : memWrite a v s = .ok t) (hs : s.mem.wf = true) :
    t.mem.wf = true := by
  obtain ⟨⟨h0, h1⟩, rfl⟩ := memWrite_ok h
  exact Memory.wf_write hs (show a.toNat < 32768 by omega) v

/-- What a memory write leaves at its own address and at every other. -/
theorem memRead_of_write {a : Int} {v : Word} {s t : State} (h0 : 0 ≤ a) (h1 : a < 32768)
    (ht : t.mem = s.mem.write a.toNat v) (b : Int) :
    memRead b t = if b = a then .ok v else memRead b s := by
  by_cases hb : 0 ≤ b ∧ b < 32768
  · rw [memRead_backed hb.1 hb.2, memRead_backed hb.1 hb.2, ht, Memory.read_write]
    split
    · rw [if_pos (by omega)]
    · rw [if_neg (by omega)]
  · rw [memRead_unbacked hb, memRead_unbacked hb, if_neg (by omega)]

end Sys2Proof.Machine
end

