-- ==== Sys2Proof/Laws/Word.lean ====
section
/-! SUPPORT. The readings of a word: their ranges, and how wrapping undoes them. -/

namespace Sys2Proof

theorem uint_nonneg (w : Word) : 0 ≤ uint w := Int.natCast_nonneg _

theorem uint_lt (w : Word) : uint w < 65536 := by
  have := w.isLt
  unfold uint
  omega

theorem uint_toNat (w : Word) : (uint w).toNat = w.toNat := rfl

/-- The two readings agree, or differ by 65536 where bit 15 is 1. -/
theorem sint_eq_uint (w : Word) : sint w = if uint w < 32768 then uint w else uint w - 65536 := by
  have := w.isLt
  unfold sint uint
  rw [BitVec.toInt_eq_toNat_cond]
  split <;> split <;> omega

theorem sint_bounds (w : Word) : -32768 ≤ sint w ∧ sint w < 32768 := by
  have h := uint_lt w
  have h0 := uint_nonneg w
  rw [sint_eq_uint]
  split <;> omega

theorem uint_of_nonneg {w : Word} (h : 0 ≤ sint w) : uint w = sint w := by
  have h1 := uint_lt w
  have h2 := sint_eq_uint w
  split at h2 <;> omega

theorem uint_of_neg {w : Word} (h : sint w < 0) : uint w = sint w + 65536 := by
  have h1 := uint_nonneg w
  have h2 := sint_eq_uint w
  split at h2 <;> omega

/-- Bit 15 is 1 exactly where no storage exists at the word read as an address. -/
theorem uint_lt_iff (w : Word) : uint w < 32768 ↔ 0 ≤ sint w := by
  have h0 := uint_nonneg w
  have h1 := uint_lt w
  rw [sint_eq_uint]
  split <;> omega

theorem uint_wrap16 (n : Int) : uint (wrap16 n) = n % 65536 := by
  unfold uint wrap16
  rw [BitVec.toNat_ofInt]
  omega

theorem sint_wrap16 {n : Int} (h : -32768 ≤ n) (h' : n < 32768) : sint (wrap16 n) = n := by
  rw [sint_eq_uint, uint_wrap16]
  split <;> omega

/-- Wrapping depends only on the number modulo 65536. -/
theorem wrap16_eq_iff (m n : Int) : wrap16 m = wrap16 n ↔ m % 65536 = n % 65536 := by
  constructor
  · intro h
    rw [← uint_wrap16, ← uint_wrap16, h]
  · intro h
    rw [← uint_wrap16, ← uint_wrap16] at h
    unfold uint at h
    exact BitVec.eq_of_toNat_eq (by omega)

theorem sint_wrap16_mod (n : Int) : sint (wrap16 n) % 65536 = n % 65536 := by
  rw [sint_eq_uint, uint_wrap16]
  split <;> omega

@[simp] theorem wrap16_sint (w : Word) : wrap16 (sint w) = w := BitVec.ofInt_toInt

theorem word_eq_of_sint {v w : Word} (h : sint v = sint w) : v = w := BitVec.eq_of_toInt_eq h

/-- A wrap inside a sum makes no difference to the wrapped sum. -/
theorem wrap16_sint_wrap16_add (n k : Int) : wrap16 (sint (wrap16 n) + k) = wrap16 (n + k) := by
  rw [wrap16_eq_iff]
  have := sint_wrap16_mod n
  omega

end Sys2Proof

namespace Sys2Proof.Machine

theorem sint_zext16 {n : Nat} (h : n < 32768) : sint (zext16 n) = n := by
  unfold sint zext16
  rw [BitVec.toInt_eq_toNat_cond, BitVec.toNat_ofNat]
  split <;> omega

end Sys2Proof.Machine
end

