-- ==== Sys2Proof/Laws/Ops.lean ====
section
/-! SUPPORT. One lemma per shared operation that says once everything it can do. -/

namespace Sys2Proof.Machine

/-- The end of an instruction: the increment after a handler that completed, the fault entry after one that
raised. -/
theorem finish_next {s t : State} {result : Except FaultKind State} (h : finish s result = .next t) :
    (∃ u, result = .ok u ∧ t = advancePc u) ∨ ∃ k, result = .error k ∧ t = takeFault k s := by
  cases result with
  | ok u =>
    injection h with h
    exact .inl ⟨u, rfl, h.symm⟩
  | error k =>
    injection h with h
    exact .inr ⟨k, rfl, h.symm⟩

theorem stackFull_iff (s : State) : stackFull s = true ↔ 12288 ≤ sint s.sp := decide_eq_true_iff

theorem stackEmpty_iff (s : State) : stackEmpty s = true ↔ sint s.sp ≤ 4096 := decide_eq_true_iff

/-- Everything a push of a word can do. -/
theorem pushWord_cases (v : Word) (s : State) :
    (12288 ≤ sint s.sp ∧ pushWord v s = .error .stackOverflow) ∨
    (sint s.sp < 0 ∧ pushWord v s = .error .segmentationFault) ∨
    (0 ≤ sint s.sp ∧ sint s.sp < 12288 ∧ pushWord v s =
      .ok (writeReg .sp (wrap16 (sint s.sp + 1)) { s with mem := s.mem.write (uint s.sp).toNat v })) := by
  by_cases hf : 12288 ≤ sint s.sp
  · exact .inl ⟨hf, if_pos ((stackFull_iff s).mpr hf)⟩
  · have hnf : ¬ stackFull s = true := mt (stackFull_iff s).mp hf
    by_cases hn : 0 ≤ sint s.sp
    · refine .inr (.inr ⟨hn, by omega, ?_⟩)
      have hlt : uint s.sp < 32768 := (uint_lt_iff _).mpr hn
      rw [pushWord, if_neg hnf, memWrite_backed (uint_nonneg _) hlt]
      rfl
    · refine .inr (.inl ⟨by omega, ?_⟩)
      rw [pushWord, if_neg hnf, memWrite_unbacked (fun h => hn ((uint_lt_iff _).mp h.2))]
      rfl

/-- A push of a word keeps the canonical form. -/
theorem pushWord_keeps_wf {v : Word} {s t : State} (h : pushWord v s = .ok t) (hs : s.mem.wf = true) :
    t.mem.wf = true := by
  rcases pushWord_cases v s with ⟨_, hp⟩ | ⟨_, hp⟩ | ⟨h0, h1, hp⟩ <;> rw [hp] at h
  · cases h
  · cases h
  · rw [← Except.ok.inj h, writeReg_mem]
    have hu := uint_of_nonneg h0
    exact Memory.wf_write hs (show (uint s.sp).toNat < 32768 by omega) v

/-- Everything a pop of a word can do: its read address always has storage. -/
theorem popWord_cases (k : FaultKind) (s : State) :
    (sint s.sp ≤ 4096 ∧ popWord k s = .error k) ∨
    (4096 < sint s.sp ∧ popWord k s =
      .ok (s.mem.read (sint s.sp - 1).toNat, writeReg .sp (wrap16 (sint s.sp - 1)) s)) := by
  by_cases he : sint s.sp ≤ 4096
  · exact .inl ⟨he, if_pos ((stackEmpty_iff s).mpr he)⟩
  · have hb := sint_bounds s.sp
    refine .inr ⟨by omega, ?_⟩
    rw [popWord, if_neg (mt (stackEmpty_iff s).mp he),
      memRead_backed (by omega) (by omega)]
    rfl

/-- The pc after a taken transfer and the increment that follows is the target. -/
theorem advancePc_branchTo_pc (t : Nat) (s : State) : (advancePc (branchTo t s)).pc = wrap16 t := by
  rw [advancePc_pc, branchTo_pc, wrap16_sint_wrap16_add, sub_add_cancel]

theorem limitReached_iff (s : State) : limitReached s = true ↔ s.limit ≤ sint s.pc := decide_eq_true_iff

end Sys2Proof.Machine
end

