-- ==== Sys2Proof/Laws/HostPort.lean ====
section
/-! SUPPORT. Everything a transaction can do to the state. -/

namespace Sys2Proof.Machine

/-- What is guarded by Halted and succeeds is done in a Halted state. -/
theorem whenHalted_ok {α : Type} {s : State} {act : Except HostRefusal α} {x : α} (h : whenHalted s act = .ok x) :
    s.status = .halted ∧ act = .ok x := by
  unfold whenHalted at h
  split at h
  · cases h
  · exact ⟨by assumption, h⟩

/-- A host write that is done is a memory write in a Halted state. -/
theorem hostWrite_ok {a : Int} {w : Word} {s t : State} (h : hostWrite a w s = .ok t) :
    s.status = .halted ∧ memWrite a w s = .ok t := by
  obtain ⟨hs, hw⟩ := whenHalted_ok h
  refine ⟨hs, ?_⟩
  cases hm : memWrite a w s <;> rw [hm] at hw
  · cases hw
  · exact congrArg Except.ok (Except.ok.inj hw)

/-- A run command that is accepted writes pc, limit and status, and nothing else. -/
theorem runCommand_ok {start : Word} {limit : Int} {s t : State} (h : runCommand start limit s = .ok t) :
    s.status = .halted ∧ s.fault = none ∧ t = { s with pc := start, limit := limit, status := .running } := by
  obtain ⟨hs, hr⟩ := whenHalted_ok h
  cases hf : s.fault with
  | some r => rw [hf] at hr; cases hr
  | none => rw [hf] at hr; exact ⟨hs, rfl, (Except.ok.inj hr).symm⟩

/-- The state after a transaction, case by case. -/
theorem perform_cases (τ : Transaction) (s : State) :
    (perform τ s).2 = s ∨
    (τ = .reset ∧ (perform τ s).2 = State.reset) ∨
    (∃ a w t, τ = .hostWrite a w ∧ s.status = .halted ∧ memWrite a w s = .ok t ∧ (perform τ s).2 = t) ∨
    (∃ start limit, τ = .run start limit ∧ s.status = .halted ∧ s.fault = none ∧
      (perform τ s).2 = { s with pc := start, limit := limit, status := .running }) ∨
    (∃ t, τ = .step ∧ step s = .next t ∧ (perform τ s).2 = t) := by
  cases τ with
  | reset => exact .inr (.inl ⟨rfl, rfl⟩)
  | hostRead a =>
    simp only [perform, performRead]
    split <;> exact .inl rfl
  | regRead i =>
    simp only [perform, performRead]
    split <;> exact .inl rfl
  | status => exact .inl rfl
  | hostWrite a w =>
    simp only [perform, performWrite]
    split
    · next t h => exact .inr (.inr (.inl ⟨a, w, t, rfl, (hostWrite_ok h).1, (hostWrite_ok h).2, rfl⟩))
    · exact .inl rfl
  | run start limit =>
    simp only [perform, performWrite]
    split
    · next t h =>
      obtain ⟨hs, hf, ht⟩ := runCommand_ok h
      exact .inr (.inr (.inr (.inl ⟨start, limit, rfl, hs, hf, ht⟩)))
    · exact .inl rfl
  | step =>
    simp only [perform, performStep]
    split
    · next t h => exact .inr (.inr (.inr (.inr ⟨t, trivial, h, rfl⟩)))
    · exact .inl rfl
    · exact .inl rfl

end Sys2Proof.Machine
end

