-- ==== Sys2Proof/Laws/PerInstr.lean ====
section
/-! SUPPORT. Facts about every instruction as syntax, one lemma per constructor. Family `OpcodeField`: the opcode
field of the word of an instruction is its place in the list of 30_encoding.md R61. -/

namespace Sys2Proof.Laws

/-- The opcode of an instruction (30_encoding.md R61). -/
def opcode : Instr → Nat
  | .nop => 0
  | .add _ _ => 1
  | .sub _ _ => 2
  | .mult _ _ => 3
  | .div _ _ => 4
  | .push _ => 5
  | .pop _ => 6
  | .mov _ _ => 7
  | .load _ => 8
  | .store _ => 9
  | .jmp _ => 10
  | .jnz _ => 11
  | .jz _ => 12
  | .jn _ => 13
  | .call _ => 14
  | .ret => 15

/-- The opcode field of the instruction's word is its opcode. -/
def OpcodeField.Statement (i : Instr) : Prop := opcodeOf (encode i) = opcode i

/-- A word whose upper 4 bits are `op` has opcode `op`. -/
theorem opcodeOf_of_toNat {w : Word} {op : Nat} {x : Nat} (h : w.toNat = op * 4096 + x) (hx : x < 4096) :
    opcodeOf w = op := by
  rw [opcodeOf_eq, h]
  omega

theorem opcodeOf_encodeA (op : BitVec 4) (src : Src8) (d : Reg) : opcodeOf (encodeA op src d) = op.toNat := by
  have hd := (regBits d).isLt
  cases src with
  | reg r =>
    have hr := (regBits r).isLt
    refine opcodeOf_of_toNat (x := 2048 + (regBits r).toNat * 8 + (regBits d).toNat) ?_ (by omega)
    simp only [encodeA, toNat_append_eq, BitVec.toNat_ofNat]
    omega
  | imm8 n =>
    refine opcodeOf_of_toNat (x := n % 256 * 8 + (regBits d).toNat) ?_ (by omega)
    simp only [encodeA, toNat_append_eq, BitVec.toNat_ofNat]
    omega

theorem opcodeOf_encodeS (op : BitVec 4) (src : Src11) : opcodeOf (encodeS op src) = op.toNat := by
  cases src with
  | reg r =>
    have hr := (regBits r).isLt
    refine opcodeOf_of_toNat (x := 2048 + (regBits r).toNat * 8) ?_ (by omega)
    simp only [encodeS, toNat_append_eq, BitVec.toNat_ofNat]
    omega
  | imm11 n =>
    refine opcodeOf_of_toNat (x := n % 2048) ?_ (by omega)
    simp only [encodeS, toNat_append_eq, BitVec.toNat_ofNat]
    omega

theorem opcodeOf_encodeD (op : BitVec 4) (d : Reg) : opcodeOf (encodeD op d) = op.toNat := by
  have hd := (regBits d).isLt
  refine opcodeOf_of_toNat (x := (regBits d).toNat) ?_ (by omega)
  simp only [encodeD, toNat_append_eq, BitVec.toNat_ofNat]
  omega

theorem opcodeOf_encodeB (op : BitVec 4) (t : Nat) : opcodeOf (encodeB op t) = op.toNat := by
  refine opcodeOf_of_toNat (x := t % 4096) ?_ (by omega)
  simp only [encodeB, toNat_append_eq, BitVec.toNat_ofNat]
  omega

theorem OpcodeField.nop : OpcodeField.Statement .nop := rfl
theorem OpcodeField.add (src : Src8) (d : Reg) : OpcodeField.Statement (.add src d) := opcodeOf_encodeA 1 src d
theorem OpcodeField.sub (src : Src8) (d : Reg) : OpcodeField.Statement (.sub src d) := opcodeOf_encodeA 2 src d
theorem OpcodeField.mult (src : Src8) (d : Reg) : OpcodeField.Statement (.mult src d) := opcodeOf_encodeA 3 src d
theorem OpcodeField.div (src : Src8) (d : Reg) : OpcodeField.Statement (.div src d) := opcodeOf_encodeA 4 src d
theorem OpcodeField.push (src : Src11) : OpcodeField.Statement (.push src) := opcodeOf_encodeS 5 src
theorem OpcodeField.pop (d : Reg) : OpcodeField.Statement (.pop d) := opcodeOf_encodeD 6 d
theorem OpcodeField.mov (src : Src8) (d : Reg) : OpcodeField.Statement (.mov src d) := opcodeOf_encodeA 7 src d
theorem OpcodeField.load (d : Reg) : OpcodeField.Statement (.load d) := opcodeOf_encodeD 8 d
theorem OpcodeField.store (src : Src11) : OpcodeField.Statement (.store src) := opcodeOf_encodeS 9 src
theorem OpcodeField.jmp (t : Nat) : OpcodeField.Statement (.jmp t) := opcodeOf_encodeB 10 t
theorem OpcodeField.jnz (t : Nat) : OpcodeField.Statement (.jnz t) := opcodeOf_encodeB 11 t
theorem OpcodeField.jz (t : Nat) : OpcodeField.Statement (.jz t) := opcodeOf_encodeB 12 t
theorem OpcodeField.jn (t : Nat) : OpcodeField.Statement (.jn t) := opcodeOf_encodeB 13 t
theorem OpcodeField.call (t : Nat) : OpcodeField.Statement (.call t) := opcodeOf_encodeB 14 t
theorem OpcodeField.ret : OpcodeField.Statement .ret := rfl

end Sys2Proof.Laws
end

