-- ==== Sys2Proof/Laws/Step.lean ====
section
/-! SUPPORT. The steps of a Running cycle below its limit that fault before they execute, and one step of the host's
run. -/

namespace Sys2Proof.Machine

/-- Below the limit a Running cycle whose fetch faults takes that fault, ir as it was. -/
theorem step_of_fetch_error {s : State} {k : FaultKind} (hs : s.status = .running) (hl : sint s.pc < s.limit)
    (hf : memRead (uint s.pc) s = .error k) : step s = .next (takeFault k s) := by
  have hn : ¬ limitReached s = true := by
    rw [limitReached_iff]
    omega
  unfold step
  rw [hs]
  simp only
  rw [if_neg hn, fetch, hf]

/-- Below the limit a Running cycle whose decode faults takes that fault with the fetched word in ir. -/
theorem step_of_decode_error {s : State} {w : Word} {k : FaultKind} (hs : s.status = .running)
    (hl : sint s.pc < s.limit) (hf : memRead (uint s.pc) s = .ok w) (hd : decode w = .error k) :
    step s = .next (takeFault k (latchIr w s)) := by
  have hn : ¬ limitReached s = true := by
    rw [limitReached_iff]
    omega
  unfold step
  rw [hs]
  simp only
  rw [if_neg hn, fetch, hf]
  simp only
  rw [hd]

/-- A run of `k + 1` steps is its first step and a run of `k` steps. -/
theorem run_succ_of_next (M : Host.Core) (k : Nat) {s t : M.State} (h : M.step s = .next t) :
    M.run (k + 1) s = M.run k t := by
  simp only [Host.Core.run, h]

end Sys2Proof.Machine
end

