-- ==== Sys2Proof/Tests/Slice0.lean ====
section
/-! SUPPORT. Tests of the model against values taken from the spec (95_test_vectors.md unless a line says otherwise),
the smoke tests of WellFormed, and for every statement with hypotheses a witness that meets them. -/

namespace Sys2Proof.Tests

open Sys2Proof Sys2Proof.Machine

/-! ### Builders -/

/-- A Running state at `pc` with the word `w` there, changed by `f`. -/
def at_ (pc w : Word) (f : State → State) : State :=
  f { State.reset with status := .running, limit := 30000, pc := pc, mem := [(pc.toNat, w)] }

/-- The state after a step; the state itself where there is none. -/
def after (s : State) : State :=
  match step s with
  | .next t => t
  | _ => s

/-- The kind recorded. -/
def kindOf (s : State) : Option FaultKind := s.fault.map FaultRecord.kind

/-- One more listed word. -/
def withWord (a : Nat) (v : Word) (s : State) : State := { s with mem := s.mem.write a v }

/-! ### WellFormed refuses an ill-formed term of each check -/

theorem smoke_imm8_too_wide : (Instr.mov (.imm8 256) .ax).wf = false := by decide
theorem smoke_imm11_too_wide : (Instr.push (.imm11 2048)).wf = false := by decide
theorem smoke_target_too_wide : (Instr.call 4096).wf = false := by decide
theorem smoke_widest_operands_pass :
    (Instr.mov (.imm8 255) .ax).wf && (Instr.push (.imm11 2047)).wf && (Instr.call 4095).wf = true := by decide

/-! ### Decoding: words written out from the formats of 30_encoding.md R63 to R67 -/

theorem test_decode_nop : decode 0b0000111111111111#16 = .ok .nop := by decide
theorem test_decode_add_imm : decode 0b0001011111111101#16 = .ok (.add (.imm8 255) .ma) := by decide
theorem test_decode_sub_imm : decode 0b0010000000111001#16 = .ok (.sub (.imm8 7) .bx) := by decide
theorem test_decode_mult_reg : decode 0b0011100000001000#16 = .ok (.mult (.reg .bx) .ax) := by decide
theorem test_decode_div_reg : decode 0b0100100000010000#16 = .ok (.div (.reg .cx) .ax) := by decide
theorem test_decode_push_reg_ignores : decode 0b0101111111101111#16 = .ok (.push (.reg .ma)) := by decide
theorem test_decode_pop : decode 0b0110000000000011#16 = .ok (.pop .sp) := by decide
theorem test_decode_mov_reg : decode 0b0111100000000100#16 = .ok (.mov (.reg .ax) .bp) := by decide
theorem test_decode_load : decode 0b1000000000000101#16 = .ok (.load .ma) := by decide
theorem test_decode_store_imm : decode 0b1001011111111111#16 = .ok (.store (.imm11 2047)) := by decide
theorem test_decode_jmp : decode 0b1010110000000000#16 = .ok (.jmp 3072) := by decide
theorem test_decode_jnz : decode 0b1011000000001001#16 = .ok (.jnz 9) := by decide
theorem test_decode_jz : decode 0b1100000000001010#16 = .ok (.jz 10) := by decide
theorem test_decode_jn : decode 0b1101000000001100#16 = .ok (.jn 12) := by decide
theorem test_decode_call : decode 0b1110000000010100#16 = .ok (.call 20) := by decide
theorem test_decode_ret : decode 0b1111111111111111#16 = .ok .ret := by decide
theorem test_decode_bad_dst : decode 0x17FF = .error .invalidOperand := by decide
theorem test_decode_bad_src : decode 0x5837 = .error .invalidOperand := by decide
theorem test_decode_bad_load_dst : decode 0x8FFE = .error .invalidOperand := by decide
theorem test_encode_words : (encode (.add (.imm8 3) .ax), encode (.mov (.reg .ax) .bx), encode (.push (.reg .ax)),
    encode (.pop .ax), encode (.jz 10)) = (0x1018, 0x7801, 0x5800, 0x6000, 0xC00A) := by decide
theorem test_decodeTableWord : decodeTableWord 16 0xE014 = some (.call 20) := by decide
theorem test_decodeTableWord_short : decodeTableWord 8 0x9FFF = some .nop := by decide

/-! ### One step of each instruction -/

theorem test_nop : (after (at_ 1 0x0FFF id)).pc = 2 := by decide
theorem test_add_wraps : (after (at_ 1 0x1800 fun s => { s with ax := wrap16 (-20000) })).ax = wrap16 25536 := by decide
theorem test_add_imm_is_unsigned : (after (at_ 1 0x17FD fun s => { s with ma := 0xFFFF })).ma = 254 := by decide
theorem test_sub_makes_negative : (after (at_ 1 0x2039 id)).bx = 0xFFF9 := by decide
theorem test_sub_wraps : (after (at_ 1 0x2008 fun s => { s with ax := 0x8000 })).ax = 0x7FFF := by decide
theorem test_mult_low_half : (after (at_ 1 0x3800 fun s => { s with ax := 300 })).ax = 24464 := by decide
theorem test_div_signs :
    let t := after (at_ 1 0x4808 fun s => { s with ax := wrap16 (-7), bx := 2 })
    t.ax = wrap16 (-3) ∧ t.cx = wrap16 (-1) := by decide
theorem test_div_cx_gets_remainder : (after (at_ 1 0x4012 fun s => { s with cx := 7 })).cx = 1 := by decide
theorem test_mov_sp_unchecked : (after (at_ 1 0x77FB id)).sp = 255 := by decide
theorem test_push_sp_is_old_sp :
    let t := after (at_ 1 0x5818 id)
    t.sp = 4097 ∧ memRead 4096 t = .ok 4096 := by decide
theorem test_push_overflow :
    let t := after (at_ 1 0x5800 fun s => { s with sp := 12288 })
    t.fault = some ⟨.stackOverflow, 1, 0x5800⟩ ∧ t.status = .halted ∧ t.sp = 12288 ∧ t.pc = 1 := by decide
theorem test_pop : (after (at_ 1 0x6001 fun s => withWord 19999 0xFFFE { s with sp := 20000 })).bx = 0xFFFE := by decide
theorem test_pop_sp_before_underflow : kindOf (after (at_ 1 0x6003 id)) = some .stackPointerCorruption := by decide
theorem test_load_last_word :
    (after (at_ 1 0x8000 fun s => withWord 32767 5 { s with ma := 32767 })).ax = 5 := by decide
theorem test_load_unbacked : kindOf (after (at_ 1 0x8000 fun s => { s with ma := 0xFFFF })) = some .segmentationFault := by
  decide
theorem test_store_ma_at_itself :
    memRead 12289 (after (at_ 1 0x9828 fun s => { s with ma := 12289 })) = .ok 12289 := by decide
theorem test_store_bad_field_before_address :
    kindOf (after (at_ 1 0x9830 fun s => { s with ma := 0x8000 })) = some .invalidOperand := by decide
theorem test_jmp_zero : (after (at_ 1 0xA000 id)).pc = 0 := by decide
theorem test_jnz_taken_on_negative : (after (at_ 4 0xB009 fun s => { s with cx := 0xFFFF })).pc = 9 := by decide
theorem test_jz_not_taken : (after (at_ 5 0xC00A fun s => { s with cx := 1 })).pc = 6 := by decide
theorem test_jn_taken : (after (at_ 3 0xD00C fun s => { s with cx := 0x8000 })).pc = 12 := by decide
theorem test_jn_not_taken_on_zero : (after (at_ 3 0xD00C id)).pc = 4 := by decide
theorem test_call_saves_own_address :
    let t := after (at_ 3 0xE014 fun s => { s with sp := 12287 })
    memRead 12287 t = .ok 3 ∧ t.sp = 12288 ∧ t.pc = 20 := by decide
theorem test_call_negative_sp : kindOf (after (at_ 3 0xE014 fun s => { s with sp := 0xFFFE })) = some .segmentationFault := by
  decide
theorem test_ret_adds_one :
    let t := after (at_ 25 0xF000 fun s => withWord 4096 0xFF9C { s with sp := 4097 })
    t.pc = 0xFF9D ∧ t.sp = 4096 := by decide
theorem test_ret_empty_is_overflow : (after (at_ 25 0xF000 id)).fault = some ⟨.stackOverflow, 25, 0xF000⟩ := by decide

/-! ### The cycle and the host's transactions (95_test_vectors.md section 2.7) -/

theorem test_fetch_fault_keeps_ir :
    (after (at_ 0xFF9D 0x0FFF fun s => { s with ir := 0xF000 })).fault = some ⟨.segmentationFault, 0xFF9D, 0xF000⟩ := by
  decide
theorem test_limit_halts_first :
    let t := after (at_ 1 0x7008 fun s => { s with limit := 1 })
    t.status = .halted ∧ t.ax = 0 ∧ t.ir = 0 ∧ t.fault = none := by decide
theorem test_run_refused_after_fault :
    (perform (.run 1 10) { State.reset with fault := some ⟨.invalidOperand, 3, 0x4808⟩ }).1 = .refused .faultRecorded := by
  decide
theorem test_trace_after_push :
    (perform .step (at_ 1 0x5800 fun s => { s with ax := 9 })).1 =
      .stepped (some ⟨9, 0, 0, 4097, 0, 0, 2, some 9⟩) := by decide
theorem test_trace_empty_stack :
    (perform .step (at_ 1 0x7028 id)).1 = .stepped (some ⟨5, 0, 0, 4096, 0, 0, 2, none⟩) := by decide
theorem test_withFetchWord_runs_from_reset : (after (State.reset.withFetchWord 16 0x7028)).ax = 5 := by decide
theorem test_load_and_run :
    (match loadProgram [0x7028, 0x1018] State.reset with
      | .ok s => (perform .step (perform (.run 1 3) s).2).2.ax
      | .error _ => 0) = 5 := by decide
theorem test_write_zero_is_unlisted : Memory.write [(3, 7), (9, 1)] 3 0 = [(9, 1)] := by decide

/-! ### Witnesses: states and operands that meet the hypotheses of each statement -/

theorem reset_inv : StateInv State.reset := ⟨rfl, rfl, fun h => absurd rfl h, fun _ h => by cases h⟩

theorem at_nop_inv : StateInv (at_ 1 0x0FFF id) := ⟨rfl, rfl, fun h => absurd rfl h, fun _ h => by cases h⟩

theorem witness_StepKeepsTheInvariant : ∃ s t, StateInv s ∧ step s = .next t :=
  ⟨at_ 1 0x0FFF id, _, at_nop_inv, rfl⟩

theorem witness_TransactionsKeepTheInvariant : ∃ s, StateInv s := ⟨_, reset_inv⟩

theorem witness_StepRunsTheDecodedInstruction :
    ∃ s w i, AboutToFetch s ∧ memRead (uint s.pc) s = .ok w ∧ decode w = .ok i :=
  ⟨at_ 32767 0x7028 (fun s => { s with limit := 32768 }), 0x7028, .mov (.imm8 5) .ax, ⟨rfl, by decide⟩, by decide, by decide⟩

theorem witness_StepHaltsOnTheLimit : ∃ s : State, s.status = .running ∧ s.limit ≤ sint s.pc :=
  ⟨at_ 1 0x7028 (fun s => { s with limit := 1 }), rfl, by decide⟩

theorem witness_FetchOutsideStorageFaults : ∃ s, AboutToFetch s ∧ 32768 ≤ uint s.pc :=
  ⟨at_ 0x8000 0x7028 id, ⟨rfl, by decide⟩, by decide⟩

theorem witness_BadRegisterFieldFaultsTheStep :
    ∃ s w, AboutToFetch s ∧ memRead (uint s.pc) s = .ok w ∧ BadRegisterField w :=
  ⟨at_ 1 0x6007 id, 0x6007, ⟨rfl, by decide⟩, by decide, .inr (.inr (by decide))⟩

theorem witness_HaltedCycleHasNoStep :
    (State.reset.status = .halted ∧ State.reset.fault = none) ∧
    ∃ (s : State) (r : FaultRecord), s.status = .halted ∧ s.fault = some r :=
  ⟨⟨rfl, rfl⟩, { State.reset with fault := some ⟨.stackOverflow, 1, 0x5800⟩ }, _, rfl, rfl⟩

theorem witness_RunningStepAnswersNext : ∃ s : State, s.status = .running := ⟨at_ 1 0x7028 id, rfl⟩

theorem witness_OnlyTheLimitOrAFaultEndsARun :
    (∃ s t, s.status = .running ∧ step s = .next t ∧ t.status = .halted ∧ s.limit ≤ sint s.pc) ∧
    (∃ s t, s.status = .running ∧ step s = .next t ∧ t.status = .halted ∧ sint s.pc < s.limit) ∧
    (∃ s w tgt, AboutToFetch s ∧ memRead (uint s.pc) s = .ok w ∧ decode w = .ok (.jmp tgt) ∧ uint s.pc = tgt) ∧
    ∃ τ : Transaction, τ ≠ .reset ∧ τ ≠ .step :=
  ⟨⟨at_ 1 0x7028 (fun s => { s with limit := 1 }), _, rfl, rfl, rfl, by decide⟩,
    ⟨at_ 1 0x6007 id, _, rfl, rfl, rfl, by decide⟩,
    ⟨at_ 4095 0xAFFF id, 0xAFFF, 4095, ⟨rfl, by decide⟩, by decide, by decide, by decide⟩, .run 1 0, by decide, by decide⟩

theorem witness_IrHoldsTheFetchedWord :
    (∃ i s t, exec i s = .next t) ∧
    (∃ s w t, AboutToFetch s ∧ memRead (uint s.pc) s = .ok w ∧ step s = .next t) ∧
    (∃ s t, s.status = .running ∧ s.limit ≤ sint s.pc ∧ step s = .next t) ∧
    ∃ (τ : Transaction) (s : State), s.status = .halted ∧ τ ≠ .reset :=
  ⟨⟨.nop, State.reset, _, rfl⟩, ⟨at_ 1 0x0FFF id, 0x0FFF, _, ⟨rfl, by decide⟩, by decide, rfl⟩,
    ⟨at_ 1 0x7028 (fun s => { s with limit := 1 }), _, rfl, by decide, rfl⟩, .run 1 0, State.reset, rfl, by decide⟩

theorem witness_IdleIsNeitherReadNorWritten : ∃ τ : Transaction, τ ≠ .reset := ⟨.step, by decide⟩

theorem witness_HiddenStateIsNeverRead : ∃ s s', SameVisible s s' ∧ s ≠ s' :=
  ⟨State.reset, { State.reset with ir := 7, idle := false, status := .running, limit := 9 },
    ⟨fun r => by cases r <;> rfl, rfl, rfl⟩, by decide⟩

theorem witness_ImmediatesAreZeroExtended :
    (∃ w src, src8Of w = .ok src ∧ w.getLsbD 11 = false ∧ src = .imm8 255) ∧
    ∃ w src, src11Of w = .ok src ∧ w.getLsbD 11 = false ∧ src = .imm11 2047 :=
  ⟨⟨0x17F8, _, rfl, rfl, by decide⟩, 0x57FF, _, rfl, rfl, by decide⟩

theorem witness_MemoryReadsTheLastWrite :
    ((0 : Int) ≤ 32767 ∧ (32767 : Int) ≤ 32767) ∧ ((-1 : Int) < 0 ∨ (32768 : Int) ≤ -1) ∧
    ((32768 : Int) < 0 ∨ (32768 : Int) ≤ 32768) := by decide

theorem witness_CanonicalMemoriesAreExtensional :
    ∃ m m' : Memory, m.wf = true ∧ m'.wf = true ∧ ∀ a, m.read a = m'.read a :=
  ⟨[(0, 1), (32767, 2)], [(0, 1), (32767, 2)], by decide, by decide, fun _ => rfl⟩

theorem witness_DivWritesQuotientThenRemainder :
    (∃ src s, sint (val8 src s) = 0) ∧ ∃ (src : Src8) (d : Reg) (s : State), sint (val8 src s) ≠ 0 ∧ d ≠ .cx :=
  ⟨⟨.imm8 0, State.reset, by decide⟩, .imm8 255, .ax, State.reset, by decide, by decide⟩

theorem witness_DivisionLawHolds :
    (∃ src s, sint (val8 src s) = 0) ∧
    (∃ (src : Src8) (d : Reg) (s : State), sint (val8 src s) ≠ 0 ∧
      ¬ (sint (readReg d s) = -32768 ∧ sint (val8 src s) = -1) ∧ d ≠ .cx) ∧
    (∃ (src : Src8) (d : Reg) (s : State), sint (val8 src s) ≠ 0 ∧
      ¬ (sint (readReg d s) = -32768 ∧ sint (val8 src s) = -1) ∧ d = .cx) ∧
    ∃ (src : Src8) (d : Reg) (s : State), sint (readReg d s) = -32768 ∧ sint (val8 src s) = -1 ∧ d ≠ .cx :=
  ⟨⟨.imm8 0, State.reset, by decide⟩, ⟨.imm8 1, .ax, { State.reset with ax := 0x8000 }, by decide, by decide, by decide⟩,
    ⟨.imm8 1, .cx, State.reset, by decide, by decide, rfl⟩,
    .reg .bx, .ax, { State.reset with ax := 0x8000, bx := 0xFFFF }, by decide, by decide, by decide⟩

theorem witness_AddThenSubIsTheIdentity : Src8.imm8 255 ≠ .reg .ax ∧ Src8.reg .ax = .reg .ax := by decide

theorem witness_PushStoresAtSpThenIncrements :
    12288 ≤ sint 12288 ∧ sint 0xFFFF < 0 ∧ (0 ≤ sint 0 ∧ sint 0 < 12288) ∧ 0 ≤ sint 12287 ∧ sint 12287 < 12288 := by
  decide

theorem witness_PopReadsBelowSpThenDecrements :
    (Reg.ax ≠ .sp ∧ sint 4096 ≤ 4096) ∧ (Reg.ax ≠ .sp ∧ 4096 < sint 4097) ∧ 4096 < sint 32767 := by decide

theorem witness_PopUndoesPush :
    ∃ d s, d ≠ Reg.sp ∧ 4096 ≤ sint (State.sp s) ∧ sint s.sp < 12288 ∧
      ∃ u, exec (.push (.reg .sp)) s = .next u ∧
        ∃ v : State, v.sp = u.sp ∧ memRead (uint s.sp) v = memRead (uint s.sp) u ∧ v ≠ u :=
  ⟨.ax, { State.reset with sp := 12287 }, by decide, by decide, by decide, _, rfl,
    { State.reset with sp := 12288, mem := [(12287, 12287)], ax := 5 }, by decide, by decide, by decide⟩

theorem witness_OnlyAluAndLoadMoveSpOutOfBounds :
    ∃ i s t, SpInBounds s ∧ exec i s = .next t ∧ ¬ SpInBounds t :=
  ⟨.mov (.imm8 255) .sp, State.reset, _, by unfold SpInBounds; decide, rfl, by unfold SpInBounds; decide⟩

theorem witness_EightThousandPushesFillTheStack : sint State.reset.sp = 4096 ∧ 8192 ≤ 8192 := by decide

theorem witness_LoadReadsAtMa : 32768 ≤ uint 0x8000 ∧ uint 0x7FFF < 32768 := by decide

theorem witness_StoreWritesAtMa : 32768 ≤ uint 0x8000 ∧ uint 0x7FFF < 32768 := by decide

theorem witness_StoredWordIsFetchedNext :
    ∃ s w src i, AboutToFetch s ∧ memRead (uint s.pc) s = .ok w ∧ decode w = .ok (.store src) ∧
      effAddr s = uint (wrap16 (sint s.pc + 1)) ∧ effAddr s < 32768 ∧ sint s.pc + 1 < s.limit ∧
      decode (val11 src s) = .ok i :=
  ⟨at_ 6 0x9800 (fun s => { s with ax := 0x7029, ma := 7 }), 0x9800, .reg .ax, .mov (.imm8 5) .bx, ⟨rfl, by decide⟩,
    by decide, by decide, by decide, by decide, by decide, by decide⟩

theorem witness_ConditionalBranchesTestCx :
    sint 0xFFFF ≠ 0 ∧ sint 0 = 0 ∧ sint 1 ≠ 0 ∧ sint 0x8000 < 0 ∧ 0 ≤ sint 0 ∧ 0 ≤ sint 0x7FFF := by decide

/-- A branch word at pc 3 and a value of cx. -/
def branchAt (w cx : Word) : State := at_ 3 w fun s => { s with cx := cx }

/-- The hypotheses of the landing statement. -/
def landingApplies (w cx : Word) : Bool :=
  decide ((branchAt w cx).status = .running) && decide (sint (branchAt w cx).pc < (branchAt w cx).limit) &&
    decide (memRead (uint (branchAt w cx).pc) (branchAt w cx) = .ok w) && decide (opcodeField w ∈ [10, 11, 12, 13])

theorem witness_BranchesLandOnTheirTarget :
    (landingApplies 0xAFFF 0 ∧ opcodeField 0xAFFF = 10) ∧
    (landingApplies 0xB000 1 ∧ opcodeField 0xB000 = 11 ∧ (branchAt 0xB000 1).cx ≠ 0) ∧
    (landingApplies 0xC00A 0 ∧ opcodeField 0xC00A = 12 ∧ (branchAt 0xC00A 0).cx = 0) ∧
    (landingApplies 0xD00C 0xFFFF ∧ opcodeField 0xD00C = 13 ∧ sint (branchAt 0xD00C 0xFFFF).cx < 0) ∧
    (landingApplies 0xB000 0 ∧ (branchAt 0xB000 0).cx = 0) ∧
    (landingApplies 0xC00A 1 ∧ (branchAt 0xC00A 1).cx ≠ 0) ∧
    landingApplies 0xD00C 0 ∧ 0 ≤ sint (branchAt 0xD00C 0).cx := by decide

theorem witness_CallSavesItsOwnAddress :
    12288 ≤ sint 12288 ∧ sint 0x8000 < 0 ∧ (0 ≤ sint 0 ∧ sint 0 < 12288) ∧ 0 ≤ sint 12287 ∧ sint 12287 < 12288 := by
  decide

theorem witness_RetResumesAfterThePoppedAddress : sint 4096 ≤ 4096 ∧ sint 0x8000 ≤ 4096 ∧ 4096 < sint 4097 := by decide

theorem witness_RetUndoesCall :
    ∃ s, 4096 ≤ sint (State.sp s) ∧ sint s.sp < 12288 ∧
      ∃ u, exec (.call 20) s = .next u ∧
        ∃ v : State, v.sp = u.sp ∧ memRead (uint s.sp) v = memRead (uint s.sp) u ∧ v ≠ u :=
  ⟨{ State.reset with pc := 3 }, by decide, by decide, _, rfl,
    { State.reset with sp := 4097, mem := [(4096, 3)], pc := 25 }, by decide, by decide, by decide⟩

theorem witness_DecodeInvertsEncode :
    (Instr.add (.imm8 255) .ma).wf ∧ (Instr.store (.imm11 2047)).wf ∧ (Instr.jn 4095).wf ∧ (Instr.pop .sp).wf := by decide

theorem witness_EncodeInvertsDecode : decode 0x1FED = .ok (.add (.reg .ma) .ma) := by decide

theorem witness_IgnoredBitsHaveNoEffect :
    (0x5FEF : Word) &&& significantBits 0x5FEF = 0x5828 &&& significantBits 0x5828 ∧ (0x5FEF : Word) ≠ 0x5828 := by decide

theorem witness_IllegalOpcodeIsNeverRaised :
    (∃ i s t r, exec i s = .next t ∧ t.fault = some r) ∧ ∃ s t r, step s = .next t ∧ t.fault = some r :=
  ⟨⟨.ret, State.reset, _, _, rfl, rfl⟩, at_ 1 0x6007 id, _, _, rfl, rfl⟩

theorem witness_PlacedWordRunsNext : decodeTableWord 16 0x6003 = some (.pop .sp) := by decide

theorem witness_RunCommandStartsARun :
    (State.reset.status = .halted ∧ State.reset.fault = none) ∧
    (∃ s : State, s.status = .halted ∧ s.fault ≠ none) ∧ ∃ s : State, s.status = .running :=
  ⟨⟨rfl, rfl⟩, ⟨{ State.reset with fault := some ⟨.stackOverflow, 1, 0x5800⟩ }, rfl, by decide⟩, at_ 1 0 id, rfl⟩

theorem witness_HostPathActsOnlyWhileHalted :
    State.reset.status = .halted ∧ ((0 : Int) ≤ 32767 ∧ (32767 : Int) ≤ 32767) ∧ ((-1 : Int) < 0 ∨ (32768 : Int) ≤ -1) ∧
    ((32768 : Int) < 0 ∨ (32768 : Int) ≤ 32768) ∧ (at_ 1 0x0FFF id).status = .running := by decide

theorem witness_OnlyResetClearsAFault :
    ∃ (s : State) (r : FaultRecord), s.fault = some r ∧ s.status = .halted ∧ Transaction.run 1 10 ≠ .reset :=
  ⟨{ State.reset with fault := some ⟨.invalidOperand, 3, 0x4808⟩ }, _, rfl, rfl, by decide⟩

theorem witness_LoaderPlacesTheProgram :
    ∃ (ws : List Word) (s : State), s.status = .halted ∧ ws.length ≤ 4095 ∧ ws.length = 4095 :=
  ⟨List.replicate 4095 0x7028, State.reset, rfl, List.length_replicate.le, List.length_replicate⟩

theorem witness_StatusPortShowsTheRecord :
    (∃ s : State, s.fault = some ⟨.segmentationFault, 0xFF9D, 0xF000⟩) ∧ State.reset.fault = none :=
  ⟨⟨{ State.reset with fault := some ⟨.segmentationFault, 0xFF9D, 0xF000⟩ }, rfl⟩, rfl⟩

theorem witness_TraceShowsTheStateAfterTheStep :
    (∃ s : State, s.status = .running ∧ s.limit ≤ sint s.pc) ∧
    (∃ s : State, s.status = .running ∧ sint s.pc < s.limit ∧ sint (after s).sp ≤ 4096) ∧
    ∃ s : State, s.status = .running ∧ sint s.pc < s.limit ∧ 4096 < sint (after s).sp :=
  ⟨⟨at_ 1 0x7028 (fun s => { s with limit := 1 }), rfl, by decide⟩, ⟨at_ 1 0x7028 id, rfl, by decide, by decide⟩,
    at_ 1 0x5800 id, rfl, by decide, by decide⟩

end Sys2Proof.Tests
end

section
/-! SUPPORT. The handler of an instruction, the part of `exec` before `finish`. The two facts about it that
10_state.md needs, that no instruction writes the hidden state and that none reads it (R25, R27, R31), are one
equation: a handler commutes with replacing that state. -/

namespace Sys2Proof.Machine

/-! ### The handler -/

/-- The handler of an instruction: what it does before the increment or the fault entry (60_exceptions.md R174). -/
def handler (i : Instr) (s : State) : Except FaultKind State :=
  match i with
  | .nop => .ok s
  | .add src d => .ok (aluExact (fun a b => a + b) src d s)
  | .sub src d => .ok (aluExact (fun a b => a - b) src d s)
  | .mult src d => .ok (aluExact (fun a b => a * b) src d s)
  | .div src d =>
    if sint (val8 src s) = 0 then .error .invalidOperand
    else .ok (writeReg .cx (wrap16 (trem (sint (readReg d s)) (sint (val8 src s))))
      (writeReg d (wrap16 (tdiv (sint (readReg d s)) (sint (val8 src s)))) s))
  | .push src => pushWord (val11 src s) s
  | .pop d =>
    if d = .sp then .error .stackPointerCorruption
    else (popWord .stackUnderflow s).map fun p => writeReg d p.1 p.2
  | .mov src d => .ok (writeReg d (val8 src s) s)
  | .load d => (memRead (effAddr s) s).map fun v => writeReg d v s
  | .store src => memWrite (effAddr s) (val11 src s) s
  | .jmp t => .ok (branchTo t s)
  | .jnz t => .ok (branchIf (cxNonZero s) t s)
  | .jz t => .ok (branchIf (cxZero s) t s)
  | .jn t => .ok (branchIf (cxNegative s) t s)
  | .call t => (pushWord s.pc s).map (branchTo t)
  | .ret => (popWord .stackOverflow s).map fun p => setPc p.1 p.2

/-- Every arm of `exec` is its handler followed by `finish`. -/
theorem exec_eq_finish_handler (i : Instr) (s : State) : exec i s = finish s (handler i s) := by cases i <;> rfl

/-! ### The hidden state, and replacing it -/

/-- The state that no program can see (10_state.md R31). -/
structure Hidden where
  ir : Word
  idle : Bool
  status : Status
  fault : Option FaultRecord
  limit : Int

/-- The hidden part of a state. -/
def State.hidden (s : State) : Hidden := ⟨s.ir, s.idle, s.status, s.fault, s.limit⟩

/-- The state with its hidden part replaced. -/
def withHidden (h : Hidden) (s : State) : State :=
  { s with ir := h.ir, idle := h.idle, status := h.status, fault := h.fault, limit := h.limit }

@[simp] theorem hidden_withHidden (h : Hidden) (s : State) : (withHidden h s).hidden = h := rfl
@[simp] theorem withHidden_hidden (s : State) : withHidden s.hidden s = s := rfl

/-! ### Reads and tests do not see the hidden state -/

@[simp] theorem withHidden_pc (h : Hidden) (s : State) : (withHidden h s).pc = s.pc := rfl
@[simp] theorem withHidden_sp (h : Hidden) (s : State) : (withHidden h s).sp = s.sp := rfl
@[simp] theorem stackFull_withHidden (h : Hidden) (s : State) : stackFull (withHidden h s) = stackFull s := rfl
@[simp] theorem stackEmpty_withHidden (h : Hidden) (s : State) : stackEmpty (withHidden h s) = stackEmpty s := rfl
@[simp] theorem readReg_withHidden (r : Reg) (h : Hidden) (s : State) : readReg r (withHidden h s) = readReg r s := by
  cases r <;> rfl
@[simp] theorem val8_withHidden (src : Src8) (h : Hidden) (s : State) : val8 src (withHidden h s) = val8 src s := by
  cases src with
  | reg r => exact readReg_withHidden r h s
  | imm8 n => rfl
@[simp] theorem val11_withHidden (src : Src11) (h : Hidden) (s : State) :
    val11 src (withHidden h s) = val11 src s := by
  cases src with
  | reg r => exact readReg_withHidden r h s
  | imm11 n => rfl
@[simp] theorem effAddr_withHidden (h : Hidden) (s : State) : effAddr (withHidden h s) = effAddr s := rfl
@[simp] theorem cxNonZero_withHidden (h : Hidden) (s : State) : cxNonZero (withHidden h s) = cxNonZero s := rfl
@[simp] theorem cxZero_withHidden (h : Hidden) (s : State) : cxZero (withHidden h s) = cxZero s := rfl
@[simp] theorem cxNegative_withHidden (h : Hidden) (s : State) : cxNegative (withHidden h s) = cxNegative s := rfl
@[simp] theorem memRead_withHidden (a : Int) (h : Hidden) (s : State) : memRead a (withHidden h s) = memRead a s :=
  memRead_congr rfl a

/-! ### Writes commute with replacing the hidden state -/

/-- Two maps after each other may be exchanged for two others that compose to the same function. -/
theorem except_map_map_congr {ε α β γ δ : Type} {f : α → β} {g : β → δ} {f' : α → γ} {g' : γ → δ}
    (hfg : ∀ x, g (f x) = g' (f' x)) (e : Except ε α) : (e.map f).map g = (e.map f').map g' := by
  cases e with
  | error k => rfl
  | ok x => exact congrArg Except.ok (hfg x)

@[simp] theorem writeReg_withHidden (r : Reg) (v : Word) (h : Hidden) (s : State) :
    writeReg r v (withHidden h s) = withHidden h (writeReg r v s) := by
  cases r <;> rfl
@[simp] theorem setPc_withHidden (v : Word) (h : Hidden) (s : State) :
    setPc v (withHidden h s) = withHidden h (setPc v s) := rfl
@[simp] theorem branchTo_withHidden (t : Nat) (h : Hidden) (s : State) :
    branchTo t (withHidden h s) = withHidden h (branchTo t s) := rfl
@[simp] theorem branchIf_withHidden (c : Bool) (t : Nat) (h : Hidden) (s : State) :
    branchIf c t (withHidden h s) = withHidden h (branchIf c t s) := by
  cases c <;> rfl
@[simp] theorem aluExact_withHidden (op : Int → Int → Int) (src : Src8) (d : Reg) (h : Hidden) (s : State) :
    aluExact op src d (withHidden h s) = withHidden h (aluExact op src d s) := by
  simp only [aluExact, readReg_withHidden, val8_withHidden, writeReg_withHidden]

theorem memWrite_withHidden (a : Int) (v : Word) (h : Hidden) (s : State) :
    memWrite a v (withHidden h s) = (memWrite a v s).map (withHidden h) := by
  unfold memWrite
  split <;> rfl

theorem pushWord_withHidden (v : Word) (h : Hidden) (s : State) :
    pushWord v (withHidden h s) = (pushWord v s).map (withHidden h) := by
  simp only [pushWord, stackFull_withHidden, withHidden_sp, memWrite_withHidden]
  split
  · rfl
  · exact except_map_map_congr (fun t => writeReg_withHidden _ _ h t) _

theorem popWord_withHidden (k : FaultKind) (h : Hidden) (s : State) :
    popWord k (withHidden h s) = (popWord k s).map (Prod.map id (withHidden h)) := by
  simp only [popWord, stackEmpty_withHidden, withHidden_sp, memRead_withHidden, writeReg_withHidden]
  split
  · rfl
  · cases memRead (sint s.sp - 1) s <;> rfl

/-- A handler neither reads nor writes the hidden state: it commutes with replacing it. -/
theorem handler_withHidden (i : Instr) (h : Hidden) (s : State) :
    handler i (withHidden h s) = (handler i s).map (withHidden h) := by
  cases i with
  | nop => rfl
  | add src d => exact congrArg Except.ok (aluExact_withHidden _ src d h s)
  | sub src d => exact congrArg Except.ok (aluExact_withHidden _ src d h s)
  | mult src d => exact congrArg Except.ok (aluExact_withHidden _ src d h s)
  | div src d =>
    simp only [handler, val8_withHidden, readReg_withHidden, writeReg_withHidden]
    split <;> rfl
  | push src =>
    rw [handler, val11_withHidden]
    exact pushWord_withHidden (val11 src s) h s
  | pop d =>
    simp only [handler, popWord_withHidden]
    split
    · rfl
    · exact except_map_map_congr (fun p => writeReg_withHidden d p.1 h p.2) _
  | mov src d => simp only [handler, val8_withHidden, writeReg_withHidden, Except.map]
  | load d =>
    simp only [handler, effAddr_withHidden, memRead_withHidden, writeReg_withHidden]
    cases memRead (effAddr s) s <;> rfl
  | store src =>
    rw [handler, effAddr_withHidden, val11_withHidden]
    exact memWrite_withHidden (effAddr s) (val11 src s) h s
  | jmp t => rfl
  | jnz t => exact congrArg Except.ok (branchIf_withHidden (cxNonZero s) t h s)
  | jz t => exact congrArg Except.ok (branchIf_withHidden (cxZero s) t h s)
  | jn t => exact congrArg Except.ok (branchIf_withHidden (cxNegative s) t h s)
  | call t =>
    simp only [handler, withHidden_pc, pushWord_withHidden]
    exact except_map_map_congr (fun u => branchTo_withHidden t h u) _
  | ret =>
    simp only [handler, popWord_withHidden]
    exact except_map_map_congr (fun p => setPc_withHidden p.1 h p.2) _

/-- A handler that completes leaves the hidden state as it was: replacing that state by itself changes nothing, so
it changes nothing in the result either. -/
theorem hidden_of_handler_ok {i : Instr} {s t : State} (ht : handler i s = .ok t) : t.hidden = s.hidden := by
  have hself : handler i s = (handler i s).map (withHidden s.hidden) := handler_withHidden i s.hidden s
  rw [ht] at hself
  have htt : t = withHidden s.hidden t := Except.ok.inj hself
  rw [htt, hidden_withHidden]

end Sys2Proof.Machine
end

section
/-! SUPPORT. The steps of the cycle that Laws/Step.lean leaves out, case by case (60_exceptions.md R174). -/

namespace Sys2Proof.Machine

theorem step_of_halted {s : State} (hs : s.status = .halted) : step s = .fault (noStep s) := by
  unfold step
  rw [hs]

theorem step_of_limit {s : State} (hs : s.status = .running) (hl : s.limit ≤ sint s.pc) :
    step s = .next (haltOnLimit s) := by
  unfold step
  rw [hs]
  exact if_pos ((limitReached_iff s).mpr hl)

theorem step_of_decode_ok {s : State} {w : Word} {i : Instr} (hs : s.status = .running) (hl : sint s.pc < s.limit)
    (hf : memRead (uint s.pc) s = .ok w) (hd : decode w = .ok i) : step s = exec i (latchIr w s) := by
  have hn : ¬ limitReached s = true := mt (limitReached_iff s).mp (not_le.mpr hl)
  unfold step
  rw [hs]
  simp only
  rw [if_neg hn, fetch, hf]
  simp only
  rw [hd]

end Sys2Proof.Machine
end

section
/-! PROOF. 10_state.md R25: the instruction register. -/

namespace Sys2Proof.Machine

/-- No instruction writes ir, whether it completes or faults. -/
theorem exec_ir {i : Instr} {s t : State} (h : exec i s = .next t) : t.ir = s.ir := by
  rw [exec_eq_finish_handler] at h
  rcases finish_next h with ⟨u, hu, rfl⟩ | ⟨k, _, rfl⟩
  · exact congrArg Hidden.ir (hidden_of_handler_ok hu)
  · rfl

/-- A step that fetches leaves the fetched word in ir, also where decode faults. -/
theorem step_ir_of_fetch {s t : State} {w : Word} (hs : AboutToFetch s) (hf : memRead (uint s.pc) s = .ok w)
    (h : step s = .next t) : t.ir = w := by
  obtain ⟨hrun, hl⟩ := hs
  cases hd : decode w with
  | error k =>
    rw [step_of_decode_error hrun hl hf hd] at h
    injection h with h
    rw [← h, takeFault_ir, latchIr_ir]
  | ok i =>
    rw [step_of_decode_ok hrun hl hf hd] at h
    rw [exec_ir h, latchIr_ir]

/-- While Halted no transaction but reset writes ir. -/
theorem perform_ir_of_halted {τ : Transaction} {s : State} (hs : s.status = .halted) (hτ : τ ≠ .reset) :
    (perform τ s).2.ir = s.ir := by
  rcases perform_cases τ s with h | ⟨hr, _⟩ | ⟨a, w, t, _, _, hw, h⟩ | ⟨start, limit, _, _, _, h⟩ | ⟨t, _, ht, _⟩
  · rw [h]
  · exact absurd hr hτ
  · obtain ⟨_, rfl⟩ := memWrite_ok hw
    rw [h]
  · rw [h]
  · rw [step_of_halted hs] at ht
    cases ht

/-- Settles O13: a handler keeps the hidden state, the fetch latches its word before decode, and in a Halted state
only memory, pc, limit and status can be written. -/
theorem irHoldsTheFetchedWord : Obligations.IrHoldsTheFetchedWord := by
  refine ⟨fun i s t h => exec_ir h, fun s w t hs hf h => step_ir_of_fetch hs hf h, fun s t hs hl h => ?_,
    fun τ s hs hτ => perform_ir_of_halted hs hτ⟩
  rw [step_of_limit hs hl] at h
  injection h with h
  rw [← h, haltOnLimit_ir]

end Sys2Proof.Machine
end

section
/-! PROOF. 10_state.md R27: every transaction but reset commutes with setting `idle`. -/

namespace Sys2Proof.Machine

/-- The state with `idle` set. -/
def setIdle (b : Bool) (s : State) : State := { s with idle := b }

@[simp] theorem setIdle_status (b : Bool) (s : State) : (setIdle b s).status = s.status := rfl
@[simp] theorem setIdle_fault (b : Bool) (s : State) : (setIdle b s).fault = s.fault := rfl

/-- A function applied to the next state of an outcome, where there is one. -/
def mapNext (f : State → State) : Host.Outcome State Fault Refusal → Host.Outcome State Fault Refusal
  | .next s => .next (f s)
  | .fault r => .fault r
  | .refused r => .refused r

theorem finish_setIdle (b : Bool) (s : State) (result : Except FaultKind State) :
    finish (setIdle b s) (result.map (setIdle b)) = mapNext (setIdle b) (finish s result) := by
  cases result <;> rfl

theorem handler_setIdle (b : Bool) (i : Instr) (s : State) :
    handler i (setIdle b s) = (handler i s).map (setIdle b) := by
  have hwith : handler i (setIdle b s) = (handler i s).map (withHidden { s.hidden with idle := b }) :=
    handler_withHidden i { s.hidden with idle := b } s
  rw [hwith]
  cases ht : handler i s with
  | error k => rfl
  | ok t =>
    rw [← hidden_of_handler_ok ht]
    rfl

theorem exec_setIdle (b : Bool) (i : Instr) (s : State) :
    exec i (setIdle b s) = mapNext (setIdle b) (exec i s) := by
  rw [exec_eq_finish_handler, exec_eq_finish_handler, handler_setIdle, finish_setIdle]

/-- A step does the same whatever `idle` is, and leaves it as it is. -/
theorem step_setIdle (b : Bool) (s : State) : step (setIdle b s) = mapNext (setIdle b) (step s) := by
  cases hs : s.status with
  | halted =>
    rw [step_of_halted hs, step_of_halted (s := setIdle b s) hs]
    rfl
  | running =>
    by_cases hl : s.limit ≤ sint s.pc
    · rw [step_of_limit hs hl, step_of_limit (s := setIdle b s) hs hl]
      rfl
    · rw [not_le] at hl
      cases hf : memRead (uint s.pc) s with
      | error k =>
        rw [step_of_fetch_error hs hl hf, step_of_fetch_error (s := setIdle b s) hs hl hf]
        rfl
      | ok w =>
        cases hd : decode w with
        | error k =>
          rw [step_of_decode_error hs hl hf hd, step_of_decode_error (s := setIdle b s) hs hl hf hd]
          rfl
        | ok i =>
          rw [step_of_decode_ok hs hl hf hd, step_of_decode_ok (s := setIdle b s) hs hl hf hd]
          exact exec_setIdle b i (latchIr w s)

theorem memWrite_setIdle (b : Bool) (a : Int) (w : Word) (s : State) :
    memWrite a w (setIdle b s) = (memWrite a w s).map (setIdle b) := by
  unfold memWrite
  split <;> rfl

theorem whenHalted_setIdle (b : Bool) (s : State) (act : Except HostRefusal State) :
    whenHalted (setIdle b s) (act.map (setIdle b)) = (whenHalted s act).map (setIdle b) := by
  rw [whenHalted, whenHalted, setIdle_status]
  cases s.status <;> rfl

theorem hostWrite_setIdle (b : Bool) (a : Int) (w : Word) (s : State) :
    hostWrite a w (setIdle b s) = (hostWrite a w s).map (setIdle b) := by
  rw [hostWrite, hostWrite, ← whenHalted_setIdle, memWrite_setIdle]
  cases memWrite a w s <;> rfl

theorem runCommand_setIdle (b : Bool) (start : Word) (limit : Int) (s : State) :
    runCommand start limit (setIdle b s) = (runCommand start limit s).map (setIdle b) := by
  rw [runCommand, runCommand, ← whenHalted_setIdle, setIdle_fault]
  cases s.fault <;> rfl

theorem performWrite_setIdle (b : Bool) (s : State) (result : Except HostRefusal State) :
    performWrite (setIdle b s) (result.map (setIdle b)) = (performWrite s result).map id (setIdle b) := by
  cases result <;> rfl

theorem performRead_setIdle (b : Bool) (s : State) (result : Except HostRefusal Word) :
    performRead (setIdle b s) result = (performRead s result).map id (setIdle b) := by
  cases result <;> rfl

theorem performStep_setIdle (b : Bool) (s : State) :
    performStep (setIdle b s) = (performStep s).map id (setIdle b) := by
  unfold performStep
  rw [step_setIdle]
  cases step s <;> rfl

/-- A transaction but reset gives the same reply whatever `idle` is, and the same state with `idle` as it was. -/
theorem perform_setIdle {τ : Transaction} (hτ : τ ≠ .reset) (b : Bool) (s : State) :
    perform τ (setIdle b s) = (perform τ s).map id (setIdle b) := by
  cases τ with
  | reset => exact absurd rfl hτ
  | hostWrite a w =>
    simp only [perform, hostWrite_setIdle]
    exact performWrite_setIdle b s _
  | hostRead a => exact performRead_setIdle b s (hostRead a s)
  | regRead i => exact performRead_setIdle b s (regRead i s)
  | run start limit =>
    simp only [perform, runCommand_setIdle]
    exact performWrite_setIdle b s _
  | step => exact performStep_setIdle b s
  | status => rfl

/-- Settles O14: reset gives true, and every other transaction commutes with setting `idle`. -/
theorem idleIsNeitherReadNorWritten : Obligations.IdleIsNeitherReadNorWritten :=
  ⟨rfl, fun _ => rfl, fun _ s b hτ => perform_setIdle hτ b s⟩

end Sys2Proof.Machine
end

section
/-! PROOF. 10_state.md R20: the register slots. -/

namespace Sys2Proof.Machine

/-- Settles O16: each slot is its own field, and a write to one register is seen at no other. -/
theorem registersHaveNoAliases : Obligations.RegistersHaveNoAliases :=
  ⟨fun _ => ⟨rfl, rfl, rfl, rfl, rfl, rfl, rfl, rfl⟩, readReg_writeReg,
    fun q v s => ⟨writeReg_pc q v s, writeReg_ir q v s⟩⟩

end Sys2Proof.Machine
end

section
/-! SUPPORT. The fields that the decoder extracts are the bit fields of 30_encoding.md R68, and what each class of
R62 can raise. -/

namespace Sys2Proof

/-! ### The decoder's fields as bit fields (30_encoding.md R68) -/

theorem toNat_extractLsb'_word (w : Word) (i n : Nat) : (w.extractLsb' i n).toNat = w.toNat / 2 ^ i % 2 ^ n := by
  rw [BitVec.extractLsb'_toNat, Nat.shiftRight_eq_div_pow]

theorem opcodeOf_eq_opcodeField (w : Word) : opcodeOf w = Machine.opcodeField w := by
  have := w.isLt
  rw [opcodeOf_eq, Machine.opcodeField, toNat_extractLsb'_word]
  omega

theorem immediate8Of_eq_extractLsb' (w : Word) : immediate8Of w = (w.extractLsb' 3 8).toNat := by
  rw [immediate8Of_eq, toNat_extractLsb'_word]
  rfl

theorem immediate11Of_eq_extractLsb' (w : Word) : immediate11Of w = (w.extractLsb' 0 11).toNat := by
  rw [immediate11Of_eq, toNat_extractLsb'_word, pow_zero, Nat.div_one]
  rfl

theorem srcOf_eq_extractLsb' (w : Word) : srcOf w = (w.extractLsb' 3 3).toNat := by
  rw [srcOf_eq, toNat_extractLsb'_word]
  rfl

theorem dstOf_eq_extractLsb' (w : Word) : dstOf w = (w.extractLsb' 0 3).toNat := by
  rw [dstOf_eq, toNat_extractLsb'_word, pow_zero, Nat.div_one]
  rfl

theorem modeFlagOf_eq_one_iff (w : Word) : modeFlagOf w = 1 ↔ w.getLsbD 11 = true := by
  rw [modeFlagOf_eq, ← BitVec.testBit_toNat, Nat.testBit_eq_decide_div_mod_eq, decide_eq_true_iff]

theorem opcodeOf_lt (w : Word) : opcodeOf w < 16 := by
  have := w.isLt
  rw [opcodeOf_eq]
  omega

/-! ### A source in mode 0 is an immediate (30_encoding.md R63, R64) -/

theorem src8Of_of_mode0 {w : Word} (h : w.getLsbD 11 = false) :
    src8Of w = .ok (.imm8 (w.extractLsb' 3 8).toNat) := by
  have hm : ¬ modeFlagOf w = 1 := mt (modeFlagOf_eq_one_iff w).mp (Bool.eq_false_iff.mp h)
  rw [src8Of, if_neg hm, immediate8Of_eq_extractLsb']

theorem src11Of_of_mode0 {w : Word} (h : w.getLsbD 11 = false) :
    src11Of w = .ok (.imm11 (w.extractLsb' 0 11).toNat) := by
  have hm : ¬ modeFlagOf w = 1 := mt (modeFlagOf_eq_one_iff w).mp (Bool.eq_false_iff.mp h)
  rw [src11Of, if_neg hm, immediate11Of_eq_extractLsb']

/-! ### What a word raises, class by class (30_encoding.md R71, R75) -/

/-- A map raises what its argument raises. -/
theorem except_map_eq_error_iff {ε α β : Type} {f : α → β} {e : Except ε α} {k : ε} :
    e.map f = .error k ↔ e = .error k := by
  cases e <;> simp [Except.map]

theorem decodeA_error_iff (op : Src8 → Reg → Instr) (w : Word) (k : FaultKind) :
    decodeA op w = .error k ↔ k = .invalidOperand ∧ (6 ≤ dstOf w ∨ modeFlagOf w = 1 ∧ 6 ≤ srcOf w) := by
  have hsrc := src8Of_error_iff w
  unfold decodeA
  cases hs : src8Of w with
  | error j =>
    obtain ⟨rfl, hbad⟩ := (hsrc j).mp hs
    simp [Except.bind, hbad, eq_comm]
  | ok src =>
    have hgood : ¬ (modeFlagOf w = 1 ∧ 6 ≤ srcOf w) := fun hbad => by
      cases hs.symm.trans ((hsrc .invalidOperand).mpr ⟨rfl, hbad⟩)
    simp only [Except.bind, except_map_eq_error_iff, checkReg_error_iff, hgood, or_false]

theorem decodeS_error_iff (op : Src11 → Instr) (w : Word) (k : FaultKind) :
    decodeS op w = .error k ↔ k = .invalidOperand ∧ modeFlagOf w = 1 ∧ 6 ≤ srcOf w := by
  rw [decodeS, except_map_eq_error_iff, src11Of_error_iff]

theorem decodeD_error_iff (op : Reg → Instr) (w : Word) (k : FaultKind) :
    decodeD op w = .error k ↔ k = .invalidOperand ∧ 6 ≤ dstOf w := by
  rw [decodeD, except_map_eq_error_iff, checkReg_error_iff]

/-- What the arm of a 4-bit opcode raises: InvalidOperand, for the fields that the opcode's class decodes. -/
theorem decodeAs_error_iff {op : Nat} (hop : op < 16) (w : Word) (k : FaultKind) :
    decodeAs op w = .error k ↔ k = .invalidOperand ∧
      ((op ∈ [1, 2, 3, 4, 7] ∧ (6 ≤ dstOf w ∨ modeFlagOf w = 1 ∧ 6 ≤ srcOf w)) ∨
       (op ∈ [5, 9] ∧ modeFlagOf w = 1 ∧ 6 ≤ srcOf w) ∨ (op ∈ [6, 8] ∧ 6 ≤ dstOf w)) := by
  match op, hop with
  | 1, _ | 2, _ | 3, _ | 4, _ | 7, _ => simp [decodeAs, decodeA_error_iff]
  | 5, _ | 9, _ => simp [decodeAs, decodeS_error_iff]
  | 6, _ | 8, _ => simp [decodeAs, decodeD_error_iff]
  | 0, _ | 10, _ | 11, _ | 12, _ | 13, _ | 14, _ | 15, _ => simp [decodeAs]
  | n + 16, h => omega

end Sys2Proof

namespace Sys2Proof.Machine

/-- The bad fields of a word in the decoder's own field readings. -/
theorem badRegisterField_iff (w : Word) : BadRegisterField w ↔
    (opcodeOf w ∈ [1, 2, 3, 4, 7] ∧ (6 ≤ dstOf w ∨ modeFlagOf w = 1 ∧ 6 ≤ srcOf w)) ∨
    (opcodeOf w ∈ [5, 9] ∧ modeFlagOf w = 1 ∧ 6 ≤ srcOf w) ∨ (opcodeOf w ∈ [6, 8] ∧ 6 ≤ dstOf w) := by
  simp only [BadRegisterField, classA, classS, classD, decide_eq_true_eq, ← opcodeOf_eq_opcodeField,
    ← dstOf_eq_extractLsb', ← srcOf_eq_extractLsb', ← modeFlagOf_eq_one_iff]

/-- All that decoding can raise is InvalidOperand, and exactly on a bad register field. -/
theorem decode_error_iff (w : Word) (k : FaultKind) :
    decode w = .error k ↔ k = .invalidOperand ∧ BadRegisterField w := by
  rw [decode, decodeAs_error_iff (opcodeOf_lt w), badRegisterField_iff]

end Sys2Proof.Machine
end

section
/-! PROOF. 30_encoding.md R69, R70, R71: immediates are zero-extended, and InvalidOperand is the bad register
fields. -/

namespace Sys2Proof.Machine

/-- The value of an immediate field narrower than the sign bit is its number, and its width bounds it. -/
theorem sint_zext16_field {n : Nat} (f : BitVec n) (hn : n < 16) :
    sint (zext16 f.toNat) = f.toNat ∧ 0 ≤ sint (zext16 f.toNat) ∧ sint (zext16 f.toNat) ≤ 2 ^ n - 1 := by
  have hf : f.toNat < 2 ^ n := f.isLt
  have hpow : 2 ^ n ≤ 2 ^ 15 := Nat.pow_le_pow_right (by decide) (by omega)
  have hval : sint (zext16 f.toNat) = f.toNat := sint_zext16 (by omega)
  have hbound : (f.toNat : Int) < 2 ^ n := by exact_mod_cast hf
  rw [hval]
  exact ⟨rfl, by omega, by omega⟩

/-- Settles O17: in mode 0 the source is the immediate field, 8 or 11 bits wide, and so below the sign bit. -/
theorem immediatesAreZeroExtended : Obligations.ImmediatesAreZeroExtended := by
  refine ⟨fun w src s hsrc hmode => ?_, fun w src s hsrc hmode => ?_⟩
  · obtain rfl : .imm8 _ = src := Except.ok.inj ((src8Of_of_mode0 hmode).symm.trans hsrc)
    exact sint_zext16_field (w.extractLsb' 3 8) (by decide)
  · obtain rfl : .imm11 _ = src := Except.ok.inj ((src11Of_of_mode0 hmode).symm.trans hsrc)
    exact sint_zext16_field (w.extractLsb' 0 11) (by decide)

/-- Settles O45: the decoder's one fault kind is InvalidOperand, raised exactly on the bad register fields. -/
theorem invalidOperandExactlyOnBadFields : Obligations.InvalidOperandExactlyOnBadFields := fun w => by
  rw [decode_error_iff]
  exact and_iff_right rfl

end Sys2Proof.Machine
end

section
/-! SUPPORT. The fault kinds that the accesses and the handlers raise, and everything a step can do. -/

namespace Sys2Proof.Machine

theorem memRead_error {a : Int} {s : State} {k : FaultKind} (h : memRead a s = .error k) :
    k = .segmentationFault := by
  unfold memRead at h
  split at h
  · cases h
  · exact (Except.error.inj h).symm

theorem memWrite_error {a : Int} {v : Word} {s : State} {k : FaultKind} (h : memWrite a v s = .error k) :
    k = .segmentationFault := by
  unfold memWrite at h
  split at h
  · cases h
  · exact (Except.error.inj h).symm

theorem pushWord_error {v : Word} {s : State} {k : FaultKind} (h : pushWord v s = .error k) :
    k = .stackOverflow ∨ k = .segmentationFault := by
  rcases pushWord_cases v s with ⟨_, hp⟩ | ⟨_, hp⟩ | ⟨_, _, hp⟩ <;> rw [hp] at h
  · exact .inl (Except.error.inj h).symm
  · exact .inr (Except.error.inj h).symm
  · cases h

theorem popWord_error {onEmpty : FaultKind} {s : State} {k : FaultKind} (h : popWord onEmpty s = .error k) :
    k = onEmpty := by
  rcases popWord_cases onEmpty s with ⟨_, hp⟩ | ⟨_, hp⟩ <;> rw [hp] at h
  · exact (Except.error.inj h).symm
  · cases h

/-- No handler raises IllegalOpcode (60_exceptions.md R165). -/
theorem handler_error_ne_illegalOpcode {i : Instr} {s : State} {k : FaultKind} (h : handler i s = .error k) :
    k ≠ .illegalOpcode := by
  cases i with
  | nop | add | sub | mult | mov | jmp | jnz | jz | jn => cases h
  | div src d =>
    rw [handler] at h
    split at h
    · exact Except.error.inj h ▸ by decide
    · cases h
  | push src => rcases pushWord_error h with rfl | rfl <;> decide
  | pop d =>
    rw [handler] at h
    split at h
    · exact Except.error.inj h ▸ by decide
    · exact popWord_error (except_map_eq_error_iff.mp h) ▸ by decide
  | load d => exact memRead_error (except_map_eq_error_iff.mp h) ▸ by decide
  | store src => exact memWrite_error h ▸ by decide
  | call t => rcases pushWord_error (except_map_eq_error_iff.mp h) with rfl | rfl <;> decide
  | ret => exact popWord_error (except_map_eq_error_iff.mp h) ▸ by decide

/-- Everything a step can do: halt on the limit, fault in the fetch or in decode, or execute. -/
theorem step_cases {s t : State} (h : step s = .next t) : s.status = .running ∧
    ((s.limit ≤ sint s.pc ∧ t = haltOnLimit s) ∨
     (AboutToFetch s ∧ ∃ k, memRead (uint s.pc) s = .error k ∧ t = takeFault k s) ∨
     (AboutToFetch s ∧ ∃ w k, memRead (uint s.pc) s = .ok w ∧ decode w = .error k ∧ t = takeFault k (latchIr w s)) ∨
     (AboutToFetch s ∧ ∃ w i, memRead (uint s.pc) s = .ok w ∧ decode w = .ok i ∧ exec i (latchIr w s) = .next t)) := by
  cases hs : s.status with
  | halted =>
    rw [step_of_halted hs] at h
    cases h
  | running =>
    refine ⟨rfl, ?_⟩
    by_cases hl : s.limit ≤ sint s.pc
    · rw [step_of_limit hs hl] at h
      injection h with h
      exact .inl ⟨hl, h.symm⟩
    rw [not_le] at hl
    cases hf : memRead (uint s.pc) s with
    | error k =>
      rw [step_of_fetch_error hs hl hf] at h
      injection h with h
      exact .inr (.inl ⟨⟨hs, hl⟩, k, rfl, h.symm⟩)
    | ok w =>
      cases hd : decode w with
      | error k =>
        rw [step_of_decode_error hs hl hf hd] at h
        injection h with h
        exact .inr (.inr (.inl ⟨⟨hs, hl⟩, w, k, rfl, hd, h.symm⟩))
      | ok i =>
        rw [step_of_decode_ok hs hl hf hd] at h
        exact .inr (.inr (.inr ⟨⟨hs, hl⟩, w, i, rfl, hd, h⟩))

end Sys2Proof.Machine
end

section
/-! PROOF. 30_encoding.md R77 and 60_exceptions.md R165: IllegalOpcode is never raised. -/

namespace Sys2Proof.Machine

/-- A fault recorded in `t` was already recorded in `s`, or its kind is not IllegalOpcode. -/
def NoNewIllegalOpcode (s t : State) : Prop :=
  ∀ r, t.fault = some r → t.fault = s.fault ∨ r.kind ≠ .illegalOpcode

theorem noNewIllegalOpcode_of_fault_eq {s t : State} (h : t.fault = s.fault) : NoNewIllegalOpcode s t :=
  fun _ _ => .inl h

theorem noNewIllegalOpcode_takeFault {k : FaultKind} (hk : k ≠ .illegalOpcode) (s u : State) :
    NoNewIllegalOpcode s (takeFault k u) := by
  intro r hr
  rw [takeFault_fault] at hr
  obtain rfl := Option.some.inj hr
  exact .inr hk

theorem decode_ne_illegalOpcode (w : Word) : decode w ≠ .error .illegalOpcode := by
  rw [Ne, decode_error_iff]
  rintro ⟨hk, _⟩
  cases hk

theorem exec_noNewIllegalOpcode {i : Instr} {s t : State} (h : exec i s = .next t) : NoNewIllegalOpcode s t := by
  rw [exec_eq_finish_handler] at h
  rcases finish_next h with ⟨u, hu, rfl⟩ | ⟨k, hk, rfl⟩
  · exact noNewIllegalOpcode_of_fault_eq (congrArg Hidden.fault (hidden_of_handler_ok hu))
  · exact noNewIllegalOpcode_takeFault (handler_error_ne_illegalOpcode hk) s s

theorem step_noNewIllegalOpcode {s t : State} (h : step s = .next t) : NoNewIllegalOpcode s t := by
  obtain ⟨_, ⟨_, rfl⟩ | ⟨_, k, hf, rfl⟩ | ⟨_, w, k, _, hd, rfl⟩ | ⟨_, w, i, _, _, he⟩⟩ := step_cases h
  · exact noNewIllegalOpcode_of_fault_eq (haltOnLimit_fault s)
  · exact noNewIllegalOpcode_takeFault (memRead_error hf ▸ by decide) s s
  · exact noNewIllegalOpcode_takeFault (fun hk => decode_ne_illegalOpcode w (hk ▸ hd)) s (latchIr w s)
  · exact exec_noNewIllegalOpcode (s := latchIr w s) he

/-- Settles O46: decode raises InvalidOperand alone, and every fault a handler, a fetch or a decode raises has
another kind. -/
theorem illegalOpcodeIsNeverRaised : Obligations.IllegalOpcodeIsNeverRaised :=
  ⟨decode_ne_illegalOpcode, fun _ _ _ h => exec_noNewIllegalOpcode h, fun _ _ h => step_noNewIllegalOpcode h⟩

end Sys2Proof.Machine
end

section
/-! SUPPORT. Format A of 30_encoding.md R63: the fields of a class-A word, and what such a word decodes to. -/

namespace Sys2Proof

/-! ### The fields of a word written as a concatenation -/

theorem toNat_formatA (op : BitVec 4) (m : BitVec 1) (x : BitVec 8) (f : BitVec 3) :
    (op ++ m ++ x ++ f).toNat = op.toNat * 4096 + m.toNat * 2048 + x.toNat * 8 + f.toNat := by
  simp only [toNat_append_eq]
  omega

theorem opcodeOf_formatA (op : BitVec 4) (m : BitVec 1) (x : BitVec 8) (f : BitVec 3) :
    opcodeOf (op ++ m ++ x ++ f) = op.toNat := by
  rw [opcodeOf_eq, toNat_formatA]
  omega

theorem modeFlagOf_formatA (op : BitVec 4) (m : BitVec 1) (x : BitVec 8) (f : BitVec 3) :
    modeFlagOf (op ++ m ++ x ++ f) = m.toNat := by
  rw [modeFlagOf_eq, toNat_formatA]
  omega

theorem immediate8Of_formatA (op : BitVec 4) (m : BitVec 1) (x : BitVec 8) (f : BitVec 3) :
    immediate8Of (op ++ m ++ x ++ f) = x.toNat := by
  rw [immediate8Of_eq, toNat_formatA]
  omega

theorem dstOf_formatA (op : BitVec 4) (m : BitVec 1) (x : BitVec 8) (f : BitVec 3) :
    dstOf (op ++ m ++ x ++ f) = f.toNat := by
  rw [dstOf_eq, toNat_formatA]
  omega

theorem srcOf_formatA (op : BitVec 4) (m : BitVec 1) (x : BitVec 5) (f g : BitVec 3) :
    srcOf (op ++ m ++ (x ++ f) ++ g) = f.toNat := by
  rw [srcOf_eq, toNat_formatA, toNat_append_eq]
  omega

/-- In the register form the ignored bits and the source field fill the place of the immediate. -/
theorem formatA_reg_eq (op : BitVec 4) (m : BitVec 1) (x : BitVec 5) (f g : BitVec 3) :
    (op ++ m ++ x ++ f ++ g : Word) = op ++ m ++ (x ++ f) ++ g := by
  apply BitVec.eq_of_toNat_eq
  simp only [toNat_append_eq]
  omega

/-! ### Decoding class A -/

theorem decodeA_imm8 (mk : Src8 → Reg → Instr) (op : BitVec 4) (n : BitVec 8) (d : Reg) :
    decodeA mk (op ++ 0#1 ++ n ++ regBits d) = .ok (mk (.imm8 n.toNat) d) := by
  have hmode : ¬ modeFlagOf (op ++ 0#1 ++ n ++ regBits d) = 1 := by
    rw [modeFlagOf_formatA]
    decide
  rw [decodeA, src8Of, if_neg hmode, immediate8Of_formatA, dstOf_formatA, checkReg_regBits]
  rfl

theorem decodeA_reg (mk : Src8 → Reg → Instr) (op : BitVec 4) (x : BitVec 5) (r d : Reg) :
    decodeA mk (op ++ 1#1 ++ (x ++ regBits r) ++ regBits d) = .ok (mk (.reg r) d) := by
  have hmode : modeFlagOf (op ++ 1#1 ++ (x ++ regBits r) ++ regBits d) = 1 := modeFlagOf_formatA _ _ _ _
  rw [decodeA, src8Of, if_pos hmode, srcOf_formatA, dstOf_formatA, checkReg_regBits,
    checkReg_regBits]
  rfl

theorem decodeA_bad_dst (mk : Src8 → Reg → Instr) (op : BitVec 4) (m : BitVec 1) (x : BitVec 8) {f : BitVec 3}
    (hf : 6 ≤ f.toNat) : decodeA mk (op ++ m ++ x ++ f) = .error .invalidOperand := by
  rw [decodeA_error_iff, dstOf_formatA]
  exact ⟨rfl, .inl hf⟩

theorem decodeA_bad_src (mk : Src8 → Reg → Instr) (op : BitVec 4) (x : BitVec 5) {f : BitVec 3} (g : BitVec 3)
    (hf : 6 ≤ f.toNat) : decodeA mk (op ++ 1#1 ++ (x ++ f) ++ g) = .error .invalidOperand := by
  rw [decodeA_error_iff, srcOf_formatA]
  exact ⟨rfl, .inr ⟨modeFlagOf_formatA _ _ _ _, hf⟩⟩

end Sys2Proof

namespace Sys2Proof.Machine

/-- An opcode whose arm of the decoder is `decodeA mk` has format A. -/
theorem formatA_of_decodeAs {op : BitVec 4} {mk : Src8 → Reg → Instr}
    (harm : ∀ w, decodeAs op.toNat w = decodeA mk w) : FormatA op mk := by
  have hdecode (m : BitVec 1) (x : BitVec 8) (f : BitVec 3) :
      decode (op ++ m ++ x ++ f) = decodeA mk (op ++ m ++ x ++ f) := by
    rw [decode, opcodeOf_formatA, harm]
  refine ⟨fun n d => ?_, fun x r d => ?_, fun m x f hf => ?_, fun x f g hf => ?_⟩
  · rw [hdecode, decodeA_imm8]
  · rw [formatA_reg_eq, hdecode, decodeA_reg]
  · rw [hdecode, decodeA_bad_dst mk op m x hf]
  · rw [formatA_reg_eq, hdecode, decodeA_bad_src mk op x g hf]

end Sys2Proof.Machine
end

section
/-! SUPPORT. From the result of a handler to the instruction completing or raising. -/

namespace Sys2Proof.Machine

/-- An instruction whose handler completes completes: the hidden state is kept, and the increment that follows
changes no software register. -/
theorem completes_of_handler {i : Instr} {s u : State} {written : List Reg} {P : State → Prop}
    (hu : handler i s = .ok u) (hregs : RegsKeptBut written s u) (hP : P (advancePc u)) :
    Completes i s written P := by
  have hexec : exec i s = .next (advancePc u) := by
    rw [exec_eq_finish_handler, hu]
    rfl
  have hhidden : u.hidden = s.hidden := hidden_of_handler_ok hu
  have hcycle : CycleKept s (advancePc u) :=
    ⟨congrArg Hidden.ir hhidden, congrArg Hidden.idle hhidden, congrArg Hidden.status hhidden,
      congrArg Hidden.fault hhidden, congrArg Hidden.limit hhidden⟩
  exact ⟨advancePc u, hexec, hcycle, fun r hr => (readReg_advancePc r u).trans (hregs r hr), hP⟩

/-- A handler that raises makes the instruction raise: the fault entry writes no register and no memory word. -/
theorem raises_of_handler {i : Instr} {s : State} {k : FaultKind} (hk : handler i s = .error k) : Raises i s k := by
  have hexec : exec i s = .next (takeFault k s) := by
    rw [exec_eq_finish_handler, hk]
    rfl
  exact ⟨takeFault k s, hexec, rfl, rfl, fun r _ => readReg_takeFault r k s, memRead_congr rfl⟩

/-- A handler that writes one register and nothing else. -/
theorem completes_of_handler_writeReg {i : Instr} {s : State} {d : Reg} {v : Word}
    (hu : handler i s = .ok (writeReg d v s)) :
    Completes i s [d] fun t => readReg d t = v ∧ NextPc s t ∧ MemKept s t := by
  refine completes_of_handler hu (fun r hr => readReg_writeReg_of_ne (List.ne_of_not_mem_cons hr) v s) ⟨?_, ?_, ?_⟩
  · rw [readReg_advancePc, readReg_writeReg_self]
  · rw [NextPc, advancePc_pc, writeReg_pc]
  · exact memRead_congr (writeReg_mem d v s)

end Sys2Proof.Machine
end

section
/-! PROOF. 40_arith_move.md R102, R103, R106: add, sub and mov. The handler of each writes its destination and
nothing else. -/

namespace Sys2Proof.Machine

/-- Settles O21: opcode 1 has format A, and the handler writes the wrapped sum to the destination alone. -/
theorem addWrapsTheExactSum : Obligations.AddWrapsTheExactSum :=
  ⟨formatA_of_decodeAs fun _ => rfl, fun _ _ _ => completes_of_handler_writeReg rfl⟩

/-- Settles O22: opcode 2 has format A, and the handler writes the wrapped difference to the destination alone. -/
theorem subWrapsTheExactDifference : Obligations.SubWrapsTheExactDifference :=
  ⟨formatA_of_decodeAs fun _ => rfl, fun _ _ _ => completes_of_handler_writeReg rfl⟩

/-- Settles O24: opcode 7 has format A, and the handler writes the source value to the destination alone. -/
theorem movCopiesTheSource : Obligations.MovCopiesTheSource :=
  ⟨formatA_of_decodeAs fun _ => rfl, fun _ _ _ => completes_of_handler_writeReg rfl⟩

end Sys2Proof.Machine
end

section
/-! PROOF. 40_arith_move.md R105: div. -/

namespace Sys2Proof.Machine

/-- The remainder of 00_scope.md R12 is the library's. -/
theorem trem_eq_tmod (a b : Int) : trem a b = Int.tmod a b := by
  rw [trem, tdiv, Int.tmod_def, mul_comm]

theorem handler_div_of_zero {src : Src8} {s : State} (d : Reg) (hb : sint (val8 src s) = 0) :
    handler (.div src d) s = .error .invalidOperand :=
  if_pos hb

theorem handler_div_of_ne_zero {src : Src8} {s : State} (d : Reg) (hb : sint (val8 src s) ≠ 0) :
    handler (.div src d) s =
      .ok (writeReg .cx (wrap16 (Int.tmod (sint (readReg d s)) (sint (val8 src s))))
        (writeReg d (wrap16 (Int.tdiv (sint (readReg d s)) (sint (val8 src s)))) s)) := by
  rw [handler, if_neg hb, trem_eq_tmod, tdiv]

/-- Settles O25: opcode 4 has format A, a zero divisor makes the handler raise, and otherwise it writes the quotient
first and cx last, so that cx holds the remainder whatever the destination. -/
theorem divWritesQuotientThenRemainder : Obligations.DivWritesQuotientThenRemainder := by
  refine ⟨formatA_of_decodeAs fun _ => rfl, fun src d s => ⟨fun hb => ?_, fun hb => ?_⟩⟩
  · exact raises_of_handler (handler_div_of_zero d hb)
  · refine completes_of_handler (handler_div_of_ne_zero d hb) (fun r hr => ?_) ⟨fun hd => ?_, ?_, ?_, ?_⟩
    · obtain ⟨hrd, hrc⟩ : r ≠ d ∧ r ≠ .cx := by simpa using hr
      rw [readReg_writeReg_of_ne hrc, readReg_writeReg_of_ne hrd]
    · rw [readReg_advancePc, readReg_writeReg_of_ne hd, readReg_writeReg_self]
    · rw [cx_eq_readReg, readReg_advancePc, readReg_writeReg_self]
    · rw [NextPc, advancePc_pc, writeReg_pc, writeReg_pc]
    · exact memRead_congr (by rw [advancePc_mem, writeReg_mem, writeReg_mem])

end Sys2Proof.Machine
end

section
/-! PROOF. 40_arith_move.md R108: the division law. -/

namespace Sys2Proof

/-! ### Truncating division on integers -/

theorem natAbs_tmod_lt (a : Int) {b : Int} (hb : b ≠ 0) : (Int.tmod a b).natAbs < b.natAbs := by
  rw [Int.natAbs_tmod]
  exact Nat.mod_lt _ (Int.natAbs_pos.mpr hb)

/-- The remainder is 0 or has the dividend's sign. -/
theorem tmod_mul_self_nonneg (a b : Int) : 0 ≤ Int.tmod a b * a := by
  rcases le_total 0 a with ha | ha
  · exact mul_nonneg (Int.tmod_nonneg b ha) ha
  · have hneg : 0 ≤ Int.tmod (-a) b := Int.tmod_nonneg b (by omega)
    rw [Int.neg_tmod] at hneg
    exact mul_nonneg_of_nonpos_of_nonpos (by omega) ha

/-! ### On the values of words -/

/-- The remainder of two words is in the range of a word. -/
theorem sint_wrap16_tmod (v : Word) {w : Word} (hw : sint w ≠ 0) :
    sint (wrap16 (Int.tmod (sint v) (sint w))) = Int.tmod (sint v) (sint w) := by
  have hlt : (Int.tmod (sint v) (sint w)).natAbs < (sint w).natAbs := natAbs_tmod_lt (sint v) hw
  have hbound := sint_bounds w
  exact sint_wrap16 (by omega) (by omega)

/-- The quotient of two words is in the range of a word but for (-32768, -1). A quotient above the range is no larger
than its dividend, so both have size 32768, and then the law of division leaves -1 as the only divisor. -/
theorem sint_wrap16_tdiv {v w : Word} (hw : sint w ≠ 0) (hex : ¬ (sint v = -32768 ∧ sint w = -1)) :
    sint (wrap16 (Int.tdiv (sint v) (sint w))) = Int.tdiv (sint v) (sint w) := by
  have hbound := sint_bounds v
  have hsize := Int.natAbs_tdiv_le_natAbs (sint v) (sint w)
  refine sint_wrap16 (by omega) (lt_of_not_ge fun hge => hex ?_)
  have hv : sint v = -32768 := by omega
  have hquot : Int.tdiv (sint v) (sint w) = 32768 := by omega
  have hlaw := Int.tdiv_mul_add_tmod (sint v) (sint w)
  rw [hquot] at hlaw
  have hrem := natAbs_tmod_lt (sint v) hw
  exact ⟨hv, by omega⟩

end Sys2Proof

namespace Sys2Proof.Machine

/-- Settles O26: the remainder always fits a word and the quotient does but for (-32768, -1), so that the law of
truncating division holds of the words written. -/
theorem divisionLawHolds : Obligations.DivisionLawHolds := by
  intro src d s
  obtain ⟨hzero, hdiv⟩ := divWritesQuotientThenRemainder.2 src d s
  refine ⟨hzero, fun hb => ?_⟩
  obtain ⟨t, hexec, _, _, hquot, hcx, _, _⟩ := hdiv hb
  have hrem : sint t.cx = Int.tmod (sint (readReg d s)) (sint (val8 src s)) := by
    rw [hcx, sint_wrap16_tmod _ hb]
  have hlaw := Int.tdiv_mul_add_tmod (sint (readReg d s)) (sint (val8 src s))
  refine ⟨t, hexec, ?_, ?_, fun hex => ⟨fun hd => ?_, fun _ => ?_⟩, fun ⟨ha, hm⟩ => ⟨?_, fun hd => ?_⟩⟩
  · exact hrem ▸ natAbs_tmod_lt _ hb
  · exact hrem ▸ tmod_mul_self_nonneg _ _
  · rw [hrem, hquot hd, sint_wrap16_tdiv hb hex, hlaw]
  · exact ⟨_, hrem ▸ hlaw.symm⟩
  · rw [hrem, ha, hm]
    decide
  · rw [hquot hd, ha, hm]
    decide

end Sys2Proof.Machine
end

section
/-! SUPPORT. Format D of 30_encoding.md R65: the fields of a class-D word, and what such a word decodes to. -/

namespace Sys2Proof

/-! ### The fields of a word written as a concatenation -/

theorem toNat_formatD (op : BitVec 4) (x : BitVec 9) (f : BitVec 3) :
    (op ++ x ++ f).toNat = op.toNat * 4096 + x.toNat * 8 + f.toNat := by
  simp only [toNat_append_eq]
  omega

theorem opcodeOf_formatD (op : BitVec 4) (x : BitVec 9) (f : BitVec 3) : opcodeOf (op ++ x ++ f) = op.toNat := by
  rw [opcodeOf_eq, toNat_formatD]
  omega

theorem dstOf_formatD (op : BitVec 4) (x : BitVec 9) (f : BitVec 3) : dstOf (op ++ x ++ f) = f.toNat := by
  rw [dstOf_eq, toNat_formatD]
  omega

/-! ### Decoding class D -/

theorem decodeD_reg (mk : Reg → Instr) (op : BitVec 4) (x : BitVec 9) (d : Reg) :
    decodeD mk (op ++ x ++ regBits d) = .ok (mk d) := by
  rw [decodeD, dstOf_formatD, checkReg_regBits]
  rfl

theorem decodeD_bad_dst (mk : Reg → Instr) (op : BitVec 4) (x : BitVec 9) {f : BitVec 3} (hf : 6 ≤ f.toNat) :
    decodeD mk (op ++ x ++ f) = .error .invalidOperand := by
  rw [decodeD_error_iff, dstOf_formatD]
  exact ⟨rfl, hf⟩

end Sys2Proof

namespace Sys2Proof.Machine

/-- An opcode whose arm of the decoder is `decodeD mk` has format D. -/
theorem formatD_of_decodeAs {op : BitVec 4} {mk : Reg → Instr}
    (harm : ∀ w, decodeAs op.toNat w = decodeD mk w) : FormatD op mk := by
  have hdecode (x : BitVec 9) (f : BitVec 3) : decode (op ++ x ++ f) = decodeD mk (op ++ x ++ f) := by
    rw [decode, opcodeOf_formatD, harm]
  refine ⟨fun x d => ?_, fun x f hf => ?_⟩
  · rw [hdecode, decodeD_reg]
  · rw [hdecode, decodeD_bad_dst mk op x hf]

end Sys2Proof.Machine
end

section
/-! PROOF. 41_stack.md R122 with 60_exceptions.md R163 and R164: pop. -/

namespace Sys2Proof.Machine

theorem handler_pop_sp (s : State) : handler (.pop .sp) s = .error .stackPointerCorruption := by
  rw [handler, if_pos rfl]

theorem handler_pop_of_empty {d : Reg} {s : State} (hd : d ≠ .sp) (he : sint s.sp ≤ 4096) :
    handler (.pop d) s = .error .stackUnderflow := by
  rcases popWord_cases .stackUnderflow s with ⟨_, hp⟩ | ⟨hne, _⟩
  · rw [handler, if_neg hd, hp]
    rfl
  · omega

theorem handler_pop_of_nonempty {d : Reg} {s : State} (hd : d ≠ .sp) (hne : 4096 < sint s.sp) :
    handler (.pop d) s =
      .ok (writeReg d (s.mem.read (sint s.sp - 1).toNat) (writeReg .sp (wrap16 (sint s.sp - 1)) s)) := by
  rcases popWord_cases .stackUnderflow s with ⟨he, _⟩ | ⟨_, hp⟩
  · omega
  · rw [handler, if_neg hd, hp]
    rfl

/-- Settles O29: opcode 6 has format D, and the handler checks the destination, then for an empty stack; past both it
writes sp first and the destination last, two different registers, from an address that has storage. -/
theorem popReadsBelowSpThenDecrements : Obligations.PopReadsBelowSpThenDecrements := by
  refine ⟨formatD_of_decodeAs fun _ => rfl, fun d s => ⟨?_, fun hd he => ?_, fun hd hne => ?_⟩⟩
  · exact raises_of_handler (handler_pop_sp s)
  · exact raises_of_handler (handler_pop_of_empty hd he)
  · have hbound := sint_bounds s.sp
    refine completes_of_handler (handler_pop_of_nonempty hd hne) (fun r hr => ?_) ⟨?_, ?_, ?_, ?_⟩
    · obtain ⟨hrd, hrsp⟩ : r ≠ d ∧ r ≠ .sp := by simpa using hr
      rw [readReg_writeReg_of_ne hrd, readReg_writeReg_of_ne hrsp]
    · rw [readReg_advancePc, readReg_writeReg_self, memRead_backed (by omega) (by omega)]
    · rw [sp_eq_readReg, readReg_advancePc, readReg_writeReg_of_ne hd.symm, readReg_writeReg_self]
    · rw [NextPc, advancePc_pc, writeReg_pc, writeReg_pc]
    · exact memRead_congr (by rw [advancePc_mem, writeReg_mem, writeReg_mem])

end Sys2Proof.Machine
end

section
/-! PROOF. 41_stack.md R123: a pop after a push. -/

namespace Sys2Proof.Machine

theorem readReg_withMem (r : Reg) (m : Memory) (s : State) : readReg r { s with mem := m } = readReg r s := by
  cases r <;> rfl

/-- Where the stack has room and sp addresses storage, push stores at `uint(sp)` and moves sp up. -/
theorem completes_push (src : Src11) {s : State} (h0 : 0 ≤ sint s.sp) (h1 : sint s.sp < 12288) :
    Completes (.push src) s [.sp] fun t =>
      t.sp = wrap16 (sint s.sp + 1) ∧ memRead (uint s.sp) t = .ok (val11 src s) ∧ MemKeptBut (uint s.sp) s t ∧
      NextPc s t := by
  rcases pushWord_cases (val11 src s) s with ⟨hfull, _⟩ | ⟨hneg, _⟩ | ⟨_, _, hp⟩
  · omega
  · omega
  · refine completes_of_handler hp (fun r hr => ?_) ⟨rfl, ?_, fun a ha => ?_, rfl⟩
    · rw [readReg_writeReg_of_ne (List.ne_of_not_mem_cons hr), readReg_withMem]
    · exact (memRead_of_write (uint_nonneg _) ((uint_lt_iff _).mpr h0) rfl _).trans (if_pos rfl)
    · exact (memRead_of_write (uint_nonneg _) ((uint_lt_iff _).mpr h0) rfl a).trans (if_neg ha)

/-- Settles O30: the push leaves sp one higher, still inside the range of a word and above the stack base, so that the
pop reads the pushed address and moves sp back. -/
theorem popUndoesPush : Obligations.PopUndoesPush := by
  intro src d s hd hlo hhi
  obtain ⟨u, hpush, _, _, husp, hupushed, _, _⟩ := completes_push src (s := s) (by omega) hhi
  refine ⟨u, hpush, fun v hvsp hvmem => ?_⟩
  have hsp : sint v.sp = sint s.sp + 1 := by rw [hvsp, husp, sint_wrap16 (by omega) (by omega)]
  have hback : sint v.sp - 1 = sint s.sp := by omega
  obtain ⟨t, hpop, hcycle, _, htop, htsp, _, _⟩ := (popReadsBelowSpThenDecrements.2 d v).2.2 hd (by omega)
  refine ⟨t, hpop, hcycle, ?_, ?_⟩
  · rw [htsp, hback, wrap16_sint]
  · rw [hback, ← uint_of_nonneg (by omega), hvmem, hupushed] at htop
    exact (Except.ok.inj htop).symm

end Sys2Proof.Machine
end

section
/-! SUPPORT. Format B of 30_encoding.md R66: the fields of a branch word, and what such a word decodes to. -/

namespace Sys2Proof

theorem target12Of_eq_extractLsb' (w : Word) : target12Of w = (w.extractLsb' 0 12).toNat := by
  rw [target12Of_eq, toNat_extractLsb'_word, pow_zero, Nat.div_one]
  rfl

/-- A target fits a word, so a pc that was set to it reads as it. -/
theorem uint_wrap16_target12Of (w : Word) : uint (wrap16 (target12Of w)) = (w.extractLsb' 0 12).toNat := by
  have hlt : target12Of w < 4096 := target12Of_eq w ▸ Nat.mod_lt _ (by decide)
  rw [uint_wrap16, ← target12Of_eq_extractLsb']
  omega

/-! ### The fields of a word written as a concatenation -/

theorem opcodeOf_formatB (op : BitVec 4) (t : BitVec 12) : opcodeOf (op ++ t) = op.toNat := by
  rw [opcodeOf_eq, toNat_append_eq]
  omega

theorem target12Of_formatB (op : BitVec 4) (t : BitVec 12) : target12Of (op ++ t) = t.toNat := by
  rw [target12Of_eq, toNat_append_eq]
  omega

end Sys2Proof

namespace Sys2Proof.Machine

/-- An opcode whose arm of the decoder answers `mk` of the target field has format B. -/
theorem formatB_of_decodeAs {op : BitVec 4} {mk : Nat → Instr}
    (harm : ∀ w, decodeAs op.toNat w = .ok (mk (target12Of w))) : FormatB op mk := by
  intro t
  rw [decode, opcodeOf_formatB, harm, target12Of_formatB]

/-- The decoder's case over the opcode is the one over `w[15:12]`. -/
theorem decode_of_opcodeField {w : Word} {n : Nat} (h : opcodeField w = n) : decode w = decodeAs n w := by
  rw [decode, opcodeOf_eq_opcodeField, h]

end Sys2Proof.Machine
end

section
/-! PROOF. 43_control.md R140 to R143 and R148: jmp, jnz, jz, jn. The handler of each is `branchIf`, that of jmp with a
condition that always holds. -/

namespace Sys2Proof.Machine

theorem readReg_branchIf (r : Reg) (c : Bool) (t : Nat) (s : State) : readReg r (branchIf c t s) = readReg r s := by
  cases c
  · rfl
  · exact readReg_branchTo r t s

theorem branchIf_mem (c : Bool) (t : Nat) (s : State) : (branchIf c t s).mem = s.mem := by cases c <;> rfl

theorem sint_eq_zero_iff (w : Word) : sint w = 0 ↔ w = 0 :=
  ⟨fun h => word_eq_of_sint h, fun h => congrArg sint h⟩

/-- A branch whose condition is `c` goes to its target wherever `c` follows, and to the next word wherever `¬ c`
does. -/
theorem completes_of_handler_branchIf {i : Instr} {s : State} {c : Bool} {t : Nat} {taken notTaken : Prop}
    (hu : handler i s = .ok (branchIf c t s)) (htaken : taken → c = true) (hnot : notTaken → c = false) :
    Completes i s [] fun u => MemKept s u ∧ (taken → u.pc = wrap16 t) ∧ (notTaken → NextPc s u) := by
  refine completes_of_handler hu (fun r _ => readReg_branchIf r c t s) ⟨?_, fun h => ?_, fun h => ?_⟩
  · exact memRead_congr (branchIf_mem c t s)
  · rw [htaken h]
    exact advancePc_branchTo_pc t s
  · rw [hnot h]
    rfl

/-- Settles O36: opcode 10 has format B, and the increment after the handler lands on the target. -/
theorem jmpGoesToTheTarget : Obligations.JmpGoesToTheTarget :=
  ⟨formatB_of_decodeAs fun _ => rfl, fun t s =>
    completes_of_handler rfl (fun r _ => readReg_branchTo r t s)
      ⟨advancePc_branchTo_pc t s, memRead_congr (branchTo_mem t s)⟩⟩

/-- Settles O37: opcodes 11 to 13 have format B, and each handler branches on its own comparison of cx with 0. -/
theorem conditionalBranchesTestCx : Obligations.ConditionalBranchesTestCx := by
  refine ⟨formatB_of_decodeAs fun _ => rfl, formatB_of_decodeAs fun _ => rfl, formatB_of_decodeAs fun _ => rfl,
    fun t s => ⟨?jnz, ?jz, ?jn⟩⟩
  case jnz => exact completes_of_handler_branchIf rfl decide_eq_true fun h => decide_eq_false (not_not_intro h)
  case jz => exact completes_of_handler_branchIf rfl decide_eq_true decide_eq_false
  case jn => exact completes_of_handler_branchIf rfl decide_eq_true fun h => decide_eq_false (not_lt.mpr h)

/-- The step of a branch word whose condition is `c`, tested after the fetch has latched the word. -/
theorem step_of_branch {s : State} {w : Word} {i : Instr} {c : Bool} {taken notTaken : Prop} (hs : AboutToFetch s)
    (hf : memRead (uint s.pc) s = .ok w) (hd : decode w = .ok i)
    (hu : handler i (latchIr w s) = .ok (branchIf c (target12Of w) (latchIr w s)))
    (htaken : taken → c = true) (hnot : notTaken → c = false) :
    ∃ t, step s = .next t ∧ (taken → uint t.pc = (w.extractLsb' 0 12).toNat) ∧ (notTaken → NextPc s t) := by
  obtain ⟨hrun, hlimit⟩ := hs
  obtain ⟨t, hexec, _, _, _, hpc, hnext⟩ := completes_of_handler_branchIf hu htaken hnot
  refine ⟨t, (step_of_decode_ok hrun hlimit hf hd).trans hexec, fun h => ?_, hnext⟩
  rw [hpc h, uint_wrap16_target12Of]

/-- Settles O38: the opcode names the branch, the fetch leaves cx alone, and of the cases stated only those of the
word's own opcode are left. -/
theorem branchesLandOnTheirTarget : Obligations.BranchesLandOnTheirTarget := by
  intro s w hs hf hop
  simp only [List.mem_cons, List.not_mem_nil, or_false] at hop
  rcases hop with hop | hop | hop | hop
  case inl =>
    exact step_of_branch (c := true) hs hf (decode_of_opcodeField hop) rfl (by simp) (by simp [hop])
  case inr.inl =>
    refine step_of_branch hs hf (decode_of_opcodeField hop) (c := cxNonZero s) rfl ?_ ?_ <;>
      simp [hop, cxNonZero, sint_eq_zero_iff]
  case inr.inr.inl =>
    refine step_of_branch hs hf (decode_of_opcodeField hop) (c := cxZero s) rfl ?_ ?_ <;>
      simp [hop, cxZero, sint_eq_zero_iff]
  case inr.inr.inr =>
    refine step_of_branch hs hf (decode_of_opcodeField hop) (c := cxNegative s) rfl ?_ ?_ <;>
      simp [hop, cxNegative]

end Sys2Proof.Machine
end

section
/-! PROOF. 43_control.md R147: a ret after a call. -/

namespace Sys2Proof.Machine

theorem handler_call_of_room (tgt : Nat) {s : State} (h0 : 0 ≤ sint s.sp) (h1 : sint s.sp < 12288) :
    handler (.call tgt) s = .ok (branchTo tgt
      (writeReg .sp (wrap16 (sint s.sp + 1)) { s with mem := s.mem.write (uint s.sp).toNat s.pc })) := by
  rcases pushWord_cases s.pc s with ⟨hfull, _⟩ | ⟨hneg, _⟩ | ⟨_, _, hp⟩
  · omega
  · omega
  · rw [handler, hp]
    rfl

/-- Where the stack has room and sp addresses storage, call saves its own address at `uint(sp)`, moves sp up and goes
to its target. -/
theorem completes_call (tgt : Nat) {s : State} (h0 : 0 ≤ sint s.sp) (h1 : sint s.sp < 12288) :
    Completes (.call tgt) s [.sp] fun u =>
      u.sp = wrap16 (sint s.sp + 1) ∧ memRead (uint s.sp) u = .ok s.pc ∧ MemKeptBut (uint s.sp) s u ∧
      u.pc = wrap16 tgt := by
  have hbacked : uint s.sp < 32768 := (uint_lt_iff _).mpr h0
  refine completes_of_handler (handler_call_of_room tgt h0 h1) (fun r hr => ?_)
    ⟨rfl, ?_, fun a ha => ?_, advancePc_branchTo_pc _ _⟩
  · rw [readReg_branchTo, readReg_writeReg_of_ne (List.ne_of_not_mem_cons hr), readReg_withMem]
  · exact (memRead_of_write (uint_nonneg _) hbacked rfl _).trans (if_pos rfl)
  · exact (memRead_of_write (uint_nonneg _) hbacked rfl a).trans (if_neg ha)

theorem handler_ret_of_nonempty {s : State} (hne : 4096 < sint s.sp) :
    handler .ret s =
      .ok (setPc (s.mem.read (sint s.sp - 1).toNat) (writeReg .sp (wrap16 (sint s.sp - 1)) s)) := by
  rcases popWord_cases .stackOverflow s with ⟨he, _⟩ | ⟨_, hp⟩
  · omega
  · rw [handler, hp]
    rfl

/-- Where the stack is not empty, ret moves sp down and resumes at the word after the popped address. -/
theorem completes_ret {s : State} (hne : 4096 < sint s.sp) :
    Completes .ret s [.sp] fun t =>
      t.sp = wrap16 (sint s.sp - 1) ∧ MemKept s t ∧
      ∃ v, memRead (sint s.sp - 1) s = .ok v ∧ t.pc = wrap16 (sint v + 1) := by
  have hbound := sint_bounds s.sp
  refine completes_of_handler (handler_ret_of_nonempty hne) (fun r hr => ?_)
    ⟨rfl, memRead_congr rfl, _, memRead_backed (by omega) (by omega) s, rfl⟩
  rw [readReg_setPc, readReg_writeReg_of_ne (List.ne_of_not_mem_cons hr)]

/-- Settles O41: the call leaves sp one higher, still inside the range of a word and above the stack base, so that the
ret reads the saved address, moves sp back, and the increment lands after the call. -/
theorem retUndoesCall : Obligations.RetUndoesCall := by
  intro tgt s hlo hhi
  obtain ⟨u, hcall, _, _, husp, husaved, _, _⟩ := completes_call tgt (s := s) (by omega) hhi
  refine ⟨u, hcall, fun v hvsp hvmem => ?_⟩
  have hsp : sint v.sp = sint s.sp + 1 := by rw [hvsp, husp, sint_wrap16 (by omega) (by omega)]
  have hback : sint v.sp - 1 = sint s.sp := by omega
  obtain ⟨t, hret, hcycle, _, htsp, _, saved, hsaved, htpc⟩ := completes_ret (s := v) (by omega)
  refine ⟨t, hret, hcycle, ?_, ?_⟩
  · rw [htsp, hback, wrap16_sint]
  · rw [hback, ← uint_of_nonneg (by omega), hvmem, husaved] at hsaved
    rw [NextPc, htpc, Except.ok.inj hsaved]

end Sys2Proof.Machine
end

section
/-! SUPPORT. Everything an instruction can do: complete, with the cycle's own state kept, or take the fault entry. -/

namespace Sys2Proof.Machine

theorem cycleKept_of_hidden_eq {s t : State} (h : t.hidden = s.hidden) : CycleKept s t :=
  ⟨congrArg Hidden.ir h, congrArg Hidden.idle h, congrArg Hidden.status h, congrArg Hidden.fault h,
    congrArg Hidden.limit h⟩

theorem exec_of_handler_ok {i : Instr} {s u : State} (hu : handler i s = .ok u) :
    exec i s = .next (advancePc u) := by
  rw [exec_eq_finish_handler, hu]
  rfl

theorem exec_of_handler_error {i : Instr} {s : State} {k : FaultKind} (hk : handler i s = .error k) :
    exec i s = .next (takeFault k s) := by
  rw [exec_eq_finish_handler, hk]
  rfl

/-- The increment writes nothing of the hidden state, so after a handler that completed it is as before. -/
theorem cycleKept_advancePc_of_handler_ok {i : Instr} {s u : State} (hu : handler i s = .ok u) :
    CycleKept s (advancePc u) :=
  have hhidden : u.hidden = s.hidden := hidden_of_handler_ok hu
  cycleKept_of_hidden_eq hhidden

/-- An instruction always has a next state: the increment after its handler, or the fault entry. -/
theorem exec_cases (i : Instr) (s : State) :
    (∃ u, handler i s = .ok u ∧ exec i s = .next (advancePc u)) ∨
    ∃ k, handler i s = .error k ∧ exec i s = .next (takeFault k s) := by
  cases hh : handler i s with
  | ok u => exact .inl ⟨u, rfl, exec_of_handler_ok hh⟩
  | error k => exact .inr ⟨k, rfl, exec_of_handler_error hh⟩

/-- A map completes where its argument does. -/
theorem except_map_eq_ok_iff {ε α β : Type} {f : α → β} {e : Except ε α} {y : β} :
    e.map f = .ok y ↔ ∃ x, e = .ok x ∧ f x = y := by
  cases e <;> simp [Except.map]

/-- A pop of a word reads memory and never writes it. -/
theorem popWord_mem {k : FaultKind} {s : State} {p : Word × State} (h : popWord k s = .ok p) :
    p.2.mem = s.mem := by
  rcases popWord_cases k s with ⟨_, hp⟩ | ⟨_, hp⟩ <;> rw [hp] at h
  · cases h
  · rw [← Except.ok.inj h, writeReg_mem]

/-- Each handler that stores a word does so through an access that keeps the canonical form; the others leave the
memory as it is. -/
theorem handler_keeps_wf {i : Instr} {s t : State} (h : handler i s = .ok t) (hs : s.mem.wf = true) :
    t.mem.wf = true := by
  cases i with
  | nop | jmp => exact Except.ok.inj h ▸ hs
  | add | sub | mult | mov =>
    rw [← Except.ok.inj h]
    exact (writeReg_mem _ _ s).symm ▸ hs
  | jnz | jz | jn =>
    rw [← Except.ok.inj h, branchIf_mem]
    exact hs
  | div src d =>
    rw [handler] at h
    split at h
    · cases h
    · rw [← Except.ok.inj h, writeReg_mem, writeReg_mem]
      exact hs
  | push src => exact pushWord_keeps_wf h hs
  | store src => exact memWrite_keeps_wf h hs
  | call t =>
    obtain ⟨u, hu, rfl⟩ := except_map_eq_ok_iff.mp h
    rw [branchTo_mem]
    exact pushWord_keeps_wf hu hs
  | pop d =>
    rw [handler] at h
    split at h
    · cases h
    · obtain ⟨p, hp, rfl⟩ := except_map_eq_ok_iff.mp h
      rw [writeReg_mem, popWord_mem hp]
      exact hs
  | load d =>
    obtain ⟨v, _, rfl⟩ := except_map_eq_ok_iff.mp h
    rw [writeReg_mem]
    exact hs
  | ret =>
    obtain ⟨p, hp, rfl⟩ := except_map_eq_ok_iff.mp h
    rw [setPc_mem, popWord_mem hp]
    exact hs

end Sys2Proof.Machine
end

section
/-! PROOF. The state invariant of 10_state.md sections 3 and 4: every step and every transaction keeps it. -/

namespace Sys2Proof.Machine

/-- Where no fault is recorded the invariant is canonical memory and `idle`. -/
theorem stateInv_of_noFault {s : State} (hmem : s.mem.wf = true) (hidle : s.idle = true) (hf : s.fault = none) :
    StateInv s :=
  ⟨hmem, hidle, fun hne => absurd hf hne, fun r hr => by rw [hf] at hr; cases hr⟩

/-- The fault entry makes the record clauses true, whatever was recorded before. -/
theorem stateInv_takeFault {s : State} {k : FaultKind} (hmem : s.mem.wf = true) (hidle : s.idle = true)
    (hk : k ≠ .illegalOpcode) : StateInv (takeFault k s) := by
  refine ⟨hmem, hidle, fun _ => rfl, fun r hr => ?_⟩
  rw [takeFault_fault] at hr
  obtain rfl := Option.some.inj hr
  exact ⟨rfl, rfl, hk⟩

/-- A Running state that meets the invariant has no fault recorded. -/
theorem StateInv.noFault_of_running {s : State} (hs : StateInv s) (hrun : s.status = .running) : s.fault = none := by
  by_contra hne
  rw [hs.faultHalts hne] at hrun
  cases hrun

theorem exec_stateInv {i : Instr} {s t : State} (hmem : s.mem.wf = true) (hidle : s.idle = true)
    (hf : s.fault = none) (h : exec i s = .next t) : StateInv t := by
  rw [exec_eq_finish_handler] at h
  rcases finish_next h with ⟨u, hu, rfl⟩ | ⟨k, hk, rfl⟩
  · obtain ⟨_, hidle', _, hfault', _⟩ := cycleKept_advancePc_of_handler_ok hu
    have hmem' : u.mem.wf = true := handler_keeps_wf hu hmem
    exact stateInv_of_noFault hmem' (hidle'.trans hidle) (hfault'.trans hf)
  · exact stateInv_takeFault hmem hidle (handler_error_ne_illegalOpcode hk)

theorem step_stateInv {s t : State} (hs : StateInv s) (h : step s = .next t) : StateInv t := by
  obtain ⟨hrun, hcases⟩ := step_cases h
  have hf : s.fault = none := hs.noFault_of_running hrun
  rcases hcases with ⟨_, rfl⟩ | ⟨_, k, hfetch, rfl⟩ | ⟨_, w, k, _, hd, rfl⟩ | ⟨_, w, i, _, _, he⟩
  · exact stateInv_of_noFault (s := haltOnLimit s) hs.memory hs.idle hf
  · exact stateInv_takeFault hs.memory hs.idle (memRead_error hfetch ▸ by decide)
  · exact stateInv_takeFault (s := latchIr w s) hs.memory hs.idle fun hk => decode_ne_illegalOpcode w (hk ▸ hd)
  · exact exec_stateInv (s := latchIr w s) hs.memory hs.idle hf he

/-- Settles O3: a Running state that meets the invariant has no fault recorded; a limit halt and a completed
instruction record none, and every fault entry records the pc and ir it leaves. -/
theorem stepKeepsTheInvariant : Obligations.StepKeepsTheInvariant := fun _ _ hs h => step_stateInv hs h

/-- Settles O2: no fault is recorded after reset. -/
theorem resetMeetsTheInvariant : Obligations.ResetMeetsTheInvariant := stateInv_of_noFault reset_mem_wf rfl rfl

/-- A host write changes the memory alone, at an address with storage. -/
theorem memWrite_stateInv {a : Int} {w : Word} {s t : State} (hs : StateInv s) (h : memWrite a w s = .ok t) :
    StateInv t := by
  have hmem : t.mem.wf = true := memWrite_keeps_wf h hs.memory
  obtain ⟨_, rfl⟩ := memWrite_ok h
  exact ⟨hmem, hs.idle, hs.faultHalts, hs.record⟩

/-- Settles O4: a run command is accepted only where no fault is recorded, a host write changes memory alone, and a
step keeps the invariant; no other transaction but reset changes the state. -/
theorem transactionsKeepTheInvariant : Obligations.TransactionsKeepTheInvariant := by
  intro τ s hs
  rcases perform_cases τ s with h | ⟨_, h⟩ | ⟨a, w, t, _, _, hw, h⟩ | ⟨start, limit, _, _, hf, h⟩ | ⟨t, _, ht, h⟩ <;>
    rw [h]
  · exact hs
  · exact resetMeetsTheInvariant
  · exact memWrite_stateInv hs hw
  · exact stateInv_of_noFault hs.memory hs.idle hf
  · exact step_stateInv hs ht

end Sys2Proof.Machine
end

section
/-! SUPPORT. Formats S and N of 30_encoding.md R64 and R67: the fields of such a word, and what it decodes to. -/

namespace Sys2Proof

/-! ### Format S -/

theorem opcodeOf_formatS (op : BitVec 4) (m : BitVec 1) (x : BitVec 11) : opcodeOf (op ++ m ++ x) = op.toNat := by
  rw [opcodeOf_eq]
  simp only [toNat_append_eq]
  omega

theorem modeFlagOf_formatS (op : BitVec 4) (m : BitVec 1) (x : BitVec 11) : modeFlagOf (op ++ m ++ x) = m.toNat := by
  rw [modeFlagOf_eq]
  simp only [toNat_append_eq]
  omega

theorem immediate11Of_formatS (op : BitVec 4) (m : BitVec 1) (x : BitVec 11) :
    immediate11Of (op ++ m ++ x) = x.toNat := by
  rw [immediate11Of_eq]
  simp only [toNat_append_eq]
  omega

theorem srcOf_formatS (op : BitVec 4) (m : BitVec 1) (x : BitVec 5) (f y : BitVec 3) :
    srcOf (op ++ m ++ (x ++ f ++ y)) = f.toNat := by
  rw [srcOf_eq]
  simp only [toNat_append_eq]
  omega

/-- In the register form the ignored bits and the source field fill the place of the immediate. -/
theorem formatS_reg_eq (op : BitVec 4) (m : BitVec 1) (x : BitVec 5) (f y : BitVec 3) :
    (op ++ m ++ x ++ f ++ y : Word) = op ++ m ++ (x ++ f ++ y) := by
  apply BitVec.eq_of_toNat_eq
  simp only [toNat_append_eq]
  omega

theorem decodeS_imm11 (mk : Src11 → Instr) (op : BitVec 4) (n : BitVec 11) :
    decodeS mk (op ++ 0#1 ++ n) = .ok (mk (.imm11 n.toNat)) := by
  have hmode : ¬ modeFlagOf (op ++ 0#1 ++ n) = 1 := by
    rw [modeFlagOf_formatS]
    decide
  rw [decodeS, src11Of, if_neg hmode, immediate11Of_formatS]
  rfl

theorem decodeS_reg (mk : Src11 → Instr) (op : BitVec 4) (x : BitVec 5) (r : Reg) (y : BitVec 3) :
    decodeS mk (op ++ 1#1 ++ (x ++ regBits r ++ y)) = .ok (mk (.reg r)) := by
  have hmode : modeFlagOf (op ++ 1#1 ++ (x ++ regBits r ++ y)) = 1 := modeFlagOf_formatS _ _ _
  rw [decodeS, src11Of, if_pos hmode, srcOf_formatS, checkReg_regBits]
  rfl

theorem decodeS_bad_src (mk : Src11 → Instr) (op : BitVec 4) (x : BitVec 5) {f : BitVec 3} (y : BitVec 3)
    (hf : 6 ≤ f.toNat) : decodeS mk (op ++ 1#1 ++ (x ++ f ++ y)) = .error .invalidOperand := by
  rw [decodeS_error_iff, srcOf_formatS]
  exact ⟨rfl, modeFlagOf_formatS _ _ _, hf⟩

end Sys2Proof

namespace Sys2Proof.Machine

/-- An opcode whose arm of the decoder is `decodeS mk` has format S. -/
theorem formatS_of_decodeAs {op : BitVec 4} {mk : Src11 → Instr}
    (harm : ∀ w, decodeAs op.toNat w = decodeS mk w) : FormatS op mk := by
  have hdecode (m : BitVec 1) (x : BitVec 11) : decode (op ++ m ++ x) = decodeS mk (op ++ m ++ x) := by
    rw [decode, opcodeOf_formatS, harm]
  refine ⟨fun n => ?_, fun x r y => ?_, fun x f y hf => ?_⟩
  · rw [hdecode, decodeS_imm11]
  · rw [formatS_reg_eq, hdecode, decodeS_reg]
  · rw [formatS_reg_eq, hdecode, decodeS_bad_src mk op x y hf]

/-- An opcode whose arm of the decoder answers one instruction has format N. -/
theorem formatN_of_decodeAs {op : BitVec 4} {i : Instr} (harm : ∀ w, decodeAs op.toNat w = .ok i) :
    FormatN op i := by
  intro x
  rw [decode, opcodeOf_formatB, harm]

end Sys2Proof.Machine
end

section
/-! PROOF. 30_encoding.md sections 2 and 4: decode inverts encode. The word of an instruction is a word of its format,
with the ignored bits 0. -/

namespace Sys2Proof.Machine

theorem decode_encodeA {op : BitVec 4} {mk : Src8 → Reg → Instr} (hfmt : FormatA op mk) {src : Src8} (d : Reg)
    (hwf : src.wf = true) : decode (encodeA op src d) = .ok (mk src d) := by
  obtain ⟨himm, hreg, _, _⟩ := hfmt
  cases src with
  | reg r => exact hreg 0#5 r d
  | imm8 n =>
    have hn : n ≤ 255 := of_decide_eq_true hwf
    have hval : (BitVec.ofNat 8 n).toNat = n := Nat.mod_eq_of_lt (by omega)
    exact (himm (BitVec.ofNat 8 n) d).trans (by rw [hval])

theorem decode_encodeS {op : BitVec 4} {mk : Src11 → Instr} (hfmt : FormatS op mk) {src : Src11}
    (hwf : src.wf = true) : decode (encodeS op src) = .ok (mk src) := by
  obtain ⟨himm, hreg, _⟩ := hfmt
  cases src with
  | reg r => exact hreg 0#5 r 0#3
  | imm11 n =>
    have hn : n ≤ 2047 := of_decide_eq_true hwf
    have hval : (BitVec.ofNat 11 n).toNat = n := Nat.mod_eq_of_lt (by omega)
    exact (himm (BitVec.ofNat 11 n)).trans (by rw [hval])

theorem decode_encodeD {op : BitVec 4} {mk : Reg → Instr} (hfmt : FormatD op mk) (d : Reg) :
    decode (encodeD op d) = .ok (mk d) :=
  hfmt.1 0#9 d

theorem decode_encodeB {op : BitVec 4} {mk : Nat → Instr} (hfmt : FormatB op mk) {t : Nat}
    (hwf : targetWf t = true) : decode (encodeB op t) = .ok (mk t) := by
  have ht : t ≤ 4095 := of_decide_eq_true hwf
  have hval : (BitVec.ofNat 12 t).toNat = t := Nat.mod_eq_of_lt (by omega)
  exact (hfmt (BitVec.ofNat 12 t)).trans (by rw [hval])

/-- Settles O42: the word of an instruction is a word of the format of its class, whose fields hold the operands as
they are where these are in range. -/
theorem decodeInvertsEncode : Obligations.DecodeInvertsEncode := by
  intro i hwf
  cases i with
  | nop | ret => exact formatN_of_decodeAs (fun _ => rfl) 0#12
  | add src d | sub src d | mult src d | div src d | mov src d =>
    exact decode_encodeA (formatA_of_decodeAs fun _ => rfl) d hwf
  | push src | store src => exact decode_encodeS (formatS_of_decodeAs fun _ => rfl) hwf
  | pop d | load d => exact decode_encodeD (formatD_of_decodeAs fun _ => rfl) d
  | jmp t | jnz t | jz t | jn t | call t => exact decode_encodeB (formatB_of_decodeAs fun _ => rfl) hwf

end Sys2Proof.Machine
end

section
/-! SUPPORT. The words of each class of 30_encoding.md R62 as concatenations of their fields, and what clearing the
ignored bits of R73 leaves of them. -/

namespace Sys2Proof

/-- Every bit vector is its upper bits before its lower ones. -/
theorem exists_append {n m : Nat} (x : BitVec (n + m)) : ∃ (y : BitVec n) (z : BitVec m), x = y ++ z :=
  ⟨_, _, BitVec.extractLsb'_append_extractLsb'.symm⟩

/-- A 3-bit field names a software register, or is 6 or 7. -/
theorem regBits_or_bad (f : BitVec 3) : (∃ r, f = regBits r) ∨ 6 ≤ f.toNat := by
  by_cases hf : 6 ≤ f.toNat
  · exact .inr hf
  · obtain ⟨r, _, hr⟩ := checkReg_ok (Nat.lt_of_not_le hf)
    exact .inl ⟨r, BitVec.eq_of_toNat_eq hr.symm⟩

theorem ofNat_toNat_self {n : Nat} (x : BitVec n) : BitVec.ofNat n x.toNat = x := by
  rw [BitVec.ofNat_toNat, BitVec.setWidth_eq]

/-! ### A word as its opcode before the fields of each format -/

theorem exists_formatB (w : Word) : ∃ t : BitVec 12, w = BitVec.ofNat 4 (opcodeOf w) ++ t := by
  obtain ⟨op, t, rfl⟩ := exists_append (n := 4) (m := 12) w
  exact ⟨t, by rw [opcodeOf_formatB, ofNat_toNat_self]⟩

theorem exists_formatD (w : Word) : ∃ (x : BitVec 9) (f : BitVec 3), w = BitVec.ofNat 4 (opcodeOf w) ++ x ++ f := by
  obtain ⟨u, f, rfl⟩ := exists_append (n := 13) (m := 3) w
  obtain ⟨op, x, rfl⟩ := exists_append (n := 4) (m := 9) u
  exact ⟨x, f, by rw [opcodeOf_formatD, ofNat_toNat_self]⟩

theorem exists_formatS (w : Word) :
    ∃ (m : BitVec 1) (x : BitVec 11), w = BitVec.ofNat 4 (opcodeOf w) ++ m ++ x := by
  obtain ⟨u, x, rfl⟩ := exists_append (n := 5) (m := 11) w
  obtain ⟨op, m, rfl⟩ := exists_append (n := 4) (m := 1) u
  exact ⟨m, x, by rw [opcodeOf_formatS, ofNat_toNat_self]⟩

theorem exists_formatA (w : Word) :
    ∃ (m : BitVec 1) (x : BitVec 8) (f : BitVec 3), w = BitVec.ofNat 4 (opcodeOf w) ++ m ++ x ++ f := by
  obtain ⟨u, f, rfl⟩ := exists_append (n := 13) (m := 3) w
  obtain ⟨v, x, rfl⟩ := exists_append (n := 5) (m := 8) u
  obtain ⟨op, m, rfl⟩ := exists_append (n := 4) (m := 1) v
  exact ⟨m, x, f, by rw [opcodeOf_formatA, ofNat_toNat_self]⟩

/-- The word with its ignored bits cleared. -/
def clearIgnored (w : Word) : Word := w &&& Machine.significantBits w

/-! ### The masks of R73 on the formats -/

theorem and_maskA_reg (op : BitVec 4) (x : BitVec 5) (f g : BitVec 3) :
    (op ++ 1#1 ++ x ++ f ++ g : Word) &&& 0xF83F = op ++ 1#1 ++ 0#5 ++ f ++ g := by
  have hmask : (0xF83F : Word) = BitVec.allOnes 4 ++ 1#1 ++ 0#5 ++ BitVec.allOnes 3 ++ BitVec.allOnes 3 := by decide
  simp only [hmask, BitVec.and_append, BitVec.and_allOnes, BitVec.and_self, BitVec.and_zero]

theorem and_maskS_reg (op : BitVec 4) (x : BitVec 5) (f y : BitVec 3) :
    (op ++ 1#1 ++ x ++ f ++ y : Word) &&& 0xF838 = op ++ 1#1 ++ 0#5 ++ f ++ 0#3 := by
  have hmask : (0xF838 : Word) = BitVec.allOnes 4 ++ 1#1 ++ 0#5 ++ BitVec.allOnes 3 ++ 0#3 := by decide
  simp only [hmask, BitVec.and_append, BitVec.and_allOnes, BitVec.and_self, BitVec.and_zero]

theorem and_maskD (op : BitVec 4) (x : BitVec 9) (f : BitVec 3) :
    (op ++ x ++ f : Word) &&& 0xF007 = op ++ 0#9 ++ f := by
  have hmask : (0xF007 : Word) = BitVec.allOnes 4 ++ 0#9 ++ BitVec.allOnes 3 := by decide
  simp only [hmask, BitVec.and_append, BitVec.and_allOnes, BitVec.and_zero]

theorem and_maskN (op : BitVec 4) (x : BitVec 12) : (op ++ x : Word) &&& 0xF000 = op ++ 0#12 := by
  have hmask : (0xF000 : Word) = BitVec.allOnes 4 ++ 0#12 := by decide
  simp only [hmask, BitVec.and_append, BitVec.and_allOnes, BitVec.and_zero]

theorem and_full (w : Word) : w &&& 0xFFFF = w := BitVec.and_allOnes

end Sys2Proof

namespace Sys2Proof.Machine

/-! ### Clearing the ignored bits -/

/-- The significant bits in the decoder's own field readings. -/
theorem significantBits_eq (w : Word) : significantBits w =
    if opcodeOf w ∈ [1, 2, 3, 4, 7] then (if modeFlagOf w = 1 then 0xF83F else 0xFFFF)
    else if opcodeOf w ∈ [5, 9] then (if modeFlagOf w = 1 then 0xF838 else 0xFFFF)
    else if opcodeOf w ∈ [6, 8] then 0xF007
    else if opcodeOf w ∈ [0, 15] then 0xF000
    else 0xFFFF := by
  simp only [significantBits, classA, classS, classD, decide_eq_true_eq, ← opcodeOf_eq_opcodeField,
    ← modeFlagOf_eq_one_iff]

theorem clearIgnored_of_mode0 {w : Word} (hop : opcodeOf w ∈ [1, 2, 3, 4, 7, 5, 9]) (hm : ¬ modeFlagOf w = 1) :
    clearIgnored w = w := by
  have hbits : significantBits w = 0xFFFF := by
    simp only [List.mem_cons, List.not_mem_nil, or_false] at hop
    rw [significantBits_eq]
    rcases hop with hop | hop | hop | hop | hop | hop | hop <;> simp [hop, hm]
  rw [clearIgnored, hbits, and_full]

theorem clearIgnored_regA {op : BitVec 4} (hop : op.toNat ∈ [1, 2, 3, 4, 7]) (x : BitVec 5) (f g : BitVec 3) :
    clearIgnored (op ++ 1#1 ++ x ++ f ++ g) = op ++ 1#1 ++ 0#5 ++ f ++ g := by
  have hbits : significantBits (op ++ 1#1 ++ x ++ f ++ g) = 0xF83F := by
    rw [significantBits_eq, formatA_reg_eq, opcodeOf_formatA, modeFlagOf_formatA, if_pos hop]
    rfl
  rw [clearIgnored, hbits, and_maskA_reg]

theorem clearIgnored_regS {op : BitVec 4} (hop : op.toNat ∈ [5, 9]) (x : BitVec 5) (f y : BitVec 3) :
    clearIgnored (op ++ 1#1 ++ x ++ f ++ y) = op ++ 1#1 ++ 0#5 ++ f ++ 0#3 := by
  have hbits : significantBits (op ++ 1#1 ++ x ++ f ++ y) = 0xF838 := by
    simp only [List.mem_cons, List.not_mem_nil, or_false] at hop
    rw [significantBits_eq, formatS_reg_eq, opcodeOf_formatS, modeFlagOf_formatS]
    rcases hop with hop | hop <;> simp [hop]
  rw [clearIgnored, hbits, and_maskS_reg]

theorem clearIgnored_D {op : BitVec 4} (hop : op.toNat ∈ [6, 8]) (x : BitVec 9) (f : BitVec 3) :
    clearIgnored (op ++ x ++ f) = op ++ 0#9 ++ f := by
  have hbits : significantBits (op ++ x ++ f) = 0xF007 := by
    simp only [List.mem_cons, List.not_mem_nil, or_false] at hop
    rw [significantBits_eq, opcodeOf_formatD]
    rcases hop with hop | hop <;> simp [hop]
  rw [clearIgnored, hbits, and_maskD]

theorem clearIgnored_N {op : BitVec 4} (hop : op.toNat ∈ [0, 15]) (x : BitVec 12) :
    clearIgnored (op ++ x) = op ++ 0#12 := by
  have hbits : significantBits (op ++ x) = 0xF000 := by
    simp only [List.mem_cons, List.not_mem_nil, or_false] at hop
    rw [significantBits_eq, opcodeOf_formatB]
    rcases hop with hop | hop <;> simp [hop]
  rw [clearIgnored, hbits, and_maskN]

theorem clearIgnored_B {op : BitVec 4} (hop : op.toNat ∈ [10, 11, 12, 13, 14]) (t : BitVec 12) :
    clearIgnored (op ++ t) = op ++ t := by
  have hbits : significantBits (op ++ t) = 0xFFFF := by
    simp only [List.mem_cons, List.not_mem_nil, or_false] at hop
    rw [significantBits_eq, opcodeOf_formatB]
    rcases hop with hop | hop | hop | hop | hop <;> simp [hop]
  rw [clearIgnored, hbits, and_full]

end Sys2Proof.Machine
end

section
/-! PROOF. 30_encoding.md sections 2 and 3: encode inverts decode but for the ignored bits, and these have no effect.
Both are one fact about each word, proved from the format of its opcode. -/

namespace Sys2Proof.Machine

/-- The word decodes as it does with its ignored bits cleared, and where it decodes, that is the word of its
instruction. -/
def RoundTrip (w : Word) : Prop :=
  decode (clearIgnored w) = decode w ∧ ∀ i, decode w = .ok i → i.wf = true ∧ encode i = clearIgnored w

theorem roundTrip_of_ok {w : Word} {i : Instr} (hd : decode w = .ok i) (hwf : i.wf = true)
    (henc : encode i = clearIgnored w) : RoundTrip w := by
  refine ⟨?_, fun j hj => ?_⟩
  · rw [← henc, decodeInvertsEncode i hwf, hd]
  · obtain rfl : i = j := Except.ok.inj (hd.symm.trans hj)
    exact ⟨hwf, henc⟩

theorem roundTrip_of_error {w : Word} {k : FaultKind} (hd : decode w = .error k)
    (hc : decode (clearIgnored w) = .error k) : RoundTrip w :=
  ⟨hc.trans hd.symm, fun _ hj => by cases hd.symm.trans hj⟩

theorem roundTrip_of_formatA {op : BitVec 4} {mk : Src8 → Reg → Instr} (hfmt : FormatA op mk)
    (hop : op.toNat ∈ [1, 2, 3, 4, 7]) (hwf : ∀ src d, (mk src d).wf = src.wf)
    (henc : ∀ src d, encode (mk src d) = encodeA op src d) (m : BitVec 1) (x : BitVec 8) (f : BitVec 3) :
    RoundTrip (op ++ m ++ x ++ f) := by
  obtain ⟨himm, hreg, hbadDst, hbadSrc⟩ := hfmt
  rcases BitVec.eq_zero_or_eq_one m with rfl | rfl
  · have hclear : clearIgnored (op ++ 0#1 ++ x ++ f) = op ++ 0#1 ++ x ++ f := by
      refine clearIgnored_of_mode0 ?_ ?_
      · rw [opcodeOf_formatA]
        exact List.mem_append_left [5, 9] hop
      · rw [modeFlagOf_formatA]
        decide
    obtain ⟨d, rfl⟩ | hf := regBits_or_bad f
    · refine roundTrip_of_ok (himm x d) ((hwf _ _).trans (decide_eq_true (by omega))) ?_
      rw [henc, hclear, encodeA, ofNat_toNat_self]
    · have hd := hbadDst 0#1 x f hf
      exact roundTrip_of_error hd (hclear.symm ▸ hd)
  · obtain ⟨y, g, rfl⟩ := exists_append (n := 5) (m := 3) x
    rw [← formatA_reg_eq]
    have hclear := clearIgnored_regA hop y g f
    obtain ⟨r, rfl⟩ | hg := regBits_or_bad g
    · obtain ⟨d, rfl⟩ | hf := regBits_or_bad f
      · exact roundTrip_of_ok (hreg y r d) (hwf _ _) ((henc _ _).trans hclear.symm)
      · rw [formatA_reg_eq] at hclear ⊢
        refine roundTrip_of_error (hbadDst 1#1 _ f hf) ?_
        rw [hclear, formatA_reg_eq, hbadDst 1#1 _ f hf]
    · refine roundTrip_of_error (hbadSrc y g f hg) ?_
      rw [hclear, hbadSrc 0#5 g f hg]

theorem roundTrip_of_formatS {op : BitVec 4} {mk : Src11 → Instr} (hfmt : FormatS op mk) (hop : op.toNat ∈ [5, 9])
    (hwf : ∀ src, (mk src).wf = src.wf) (henc : ∀ src, encode (mk src) = encodeS op src) (m : BitVec 1)
    (x : BitVec 11) : RoundTrip (op ++ m ++ x) := by
  obtain ⟨himm, hreg, hbad⟩ := hfmt
  rcases BitVec.eq_zero_or_eq_one m with rfl | rfl
  · have hclear : clearIgnored (op ++ 0#1 ++ x) = op ++ 0#1 ++ x := by
      refine clearIgnored_of_mode0 ?_ ?_
      · rw [opcodeOf_formatS]
        exact List.mem_append_right [1, 2, 3, 4, 7] hop
      · rw [modeFlagOf_formatS]
        decide
    refine roundTrip_of_ok (himm x) ((hwf _).trans (decide_eq_true (by omega))) ?_
    rw [henc, hclear, encodeS, ofNat_toNat_self]
  · obtain ⟨z, y, rfl⟩ := exists_append (n := 8) (m := 3) x
    obtain ⟨x, g, rfl⟩ := exists_append (n := 5) (m := 3) z
    rw [← formatS_reg_eq]
    have hclear := clearIgnored_regS hop x g y
    obtain ⟨r, rfl⟩ | hg := regBits_or_bad g
    · exact roundTrip_of_ok (hreg x r y) (hwf _) ((henc _).trans hclear.symm)
    · refine roundTrip_of_error (hbad x g y hg) ?_
      rw [hclear, hbad 0#5 g 0#3 hg]

theorem roundTrip_of_formatD {op : BitVec 4} {mk : Reg → Instr} (hfmt : FormatD op mk) (hop : op.toNat ∈ [6, 8])
    (hwf : ∀ d, (mk d).wf = true) (henc : ∀ d, encode (mk d) = encodeD op d) (x : BitVec 9) (f : BitVec 3) :
    RoundTrip (op ++ x ++ f) := by
  obtain ⟨hreg, hbad⟩ := hfmt
  have hclear := clearIgnored_D hop x f
  obtain ⟨d, rfl⟩ | hf := regBits_or_bad f
  · exact roundTrip_of_ok (hreg x d) (hwf d) ((henc d).trans hclear.symm)
  · refine roundTrip_of_error (hbad x f hf) ?_
    rw [hclear, hbad 0#9 f hf]

theorem roundTrip_of_formatB {op : BitVec 4} {mk : Nat → Instr} (hfmt : FormatB op mk)
    (hop : op.toNat ∈ [10, 11, 12, 13, 14]) (hwf : ∀ t, (mk t).wf = targetWf t)
    (henc : ∀ t, encode (mk t) = encodeB op t) (t : BitVec 12) : RoundTrip (op ++ t) := by
  refine roundTrip_of_ok (hfmt t) ((hwf _).trans (decide_eq_true (by omega))) ?_
  rw [henc, clearIgnored_B hop, encodeB, ofNat_toNat_self]

theorem roundTrip_of_formatN {op : BitVec 4} {i : Instr} (hfmt : FormatN op i) (hop : op.toNat ∈ [0, 15])
    (hwf : i.wf = true) (henc : encode i = op ++ 0#12) (x : BitVec 12) : RoundTrip (op ++ x) :=
  roundTrip_of_ok (hfmt x) hwf (henc.trans (clearIgnored_N hop x).symm)

/-- Every opcode has one of the five formats, and its instructions are encoded in it. -/
theorem roundTrip (w : Word) : RoundTrip w := by
  match hop : opcodeOf w, opcodeOf_lt w with
  | 1, _ | 2, _ | 3, _ | 4, _ | 7, _ =>
    obtain ⟨m, x, f, hw⟩ := exists_formatA w
    rw [hw, hop]
    exact roundTrip_of_formatA (formatA_of_decodeAs fun _ => rfl) (by decide) (fun _ _ => rfl) (fun _ _ => rfl) m x f
  | 5, _ | 9, _ =>
    obtain ⟨m, x, hw⟩ := exists_formatS w
    rw [hw, hop]
    exact roundTrip_of_formatS (formatS_of_decodeAs fun _ => rfl) (by decide) (fun _ => rfl) (fun _ => rfl) m x
  | 6, _ | 8, _ =>
    obtain ⟨x, f, hw⟩ := exists_formatD w
    rw [hw, hop]
    exact roundTrip_of_formatD (formatD_of_decodeAs fun _ => rfl) (by decide) (fun _ => rfl) (fun _ => rfl) x f
  | 10, _ | 11, _ | 12, _ | 13, _ | 14, _ =>
    obtain ⟨t, hw⟩ := exists_formatB w
    rw [hw, hop]
    exact roundTrip_of_formatB (formatB_of_decodeAs fun _ => rfl) (by decide) (fun _ => rfl) (fun _ => rfl) t
  | 0, _ | 15, _ =>
    obtain ⟨x, hw⟩ := exists_formatB w
    rw [hw, hop]
    exact roundTrip_of_formatN (formatN_of_decodeAs fun _ => rfl) (by decide) rfl rfl x
  | n + 16, h => omega

/-- Settles O43: a word that decodes has the format of its opcode, and clearing its ignored bits gives the word that
the encoder writes. -/
theorem encodeInvertsDecode : Obligations.EncodeInvertsDecode := fun w => (roundTrip w).2

/-- Settles O44: a word decodes as it does with its ignored bits cleared. -/
theorem ignoredBitsHaveNoEffect : Obligations.IgnoredBitsHaveNoEffect := by
  intro w w' h
  calc decode w = decode (clearIgnored w) := (roundTrip w).1.symm
    _ = decode (clearIgnored w') := congrArg decode h
    _ = decode w' := (roundTrip w').1

end Sys2Proof.Machine
end

section
/-! PROOF. 60_exceptions.md section 4: what a step of the cycle is, case by case. -/

namespace Sys2Proof.Machine

/-- Settles O5: below the limit, with the word fetched and decoded, the step is the execution. -/
theorem stepRunsTheDecodedInstruction : Obligations.StepRunsTheDecodedInstruction :=
  fun _ _ _ ⟨hrun, hlimit⟩ hf hd => step_of_decode_ok hrun hlimit hf hd

/-- Settles O6: the limit check comes before the fetch. -/
theorem stepHaltsOnTheLimit : Obligations.StepHaltsOnTheLimit := fun _ hrun hlimit => step_of_limit hrun hlimit

/-- Settles O7: no storage exists from 32768 on, and a fetch there faults before ir is written. -/
theorem fetchOutsideStorageFaults : Obligations.FetchOutsideStorageFaults := by
  intro s ⟨hrun, hlimit⟩ hpc
  have hf : memRead (uint s.pc) s = .error .segmentationFault := memRead_unbacked (by omega) s
  exact ⟨_, step_of_fetch_error hrun hlimit hf, rfl⟩

/-- Settles O8: a bad register field is what decoding raises on, after the fetch has written ir. -/
theorem badRegisterFieldFaultsTheStep : Obligations.BadRegisterFieldFaultsTheStep := by
  intro s w ⟨hrun, hlimit⟩ hf hbad
  have hd : decode w = .error .invalidOperand := (decode_error_iff w .invalidOperand).mpr ⟨rfl, hbad⟩
  exact ⟨_, step_of_decode_error hrun hlimit hf hd, rfl⟩

/-- The step transaction in a Halted state is refused. -/
theorem performStep_of_halted {s : State} (hs : s.status = .halted) : perform .step s = (.refused .notRunning, s) := by
  rw [perform, performStep, step_of_halted hs]

/-- The step transaction of a step that answers a next state shows its trace. -/
theorem performStep_of_next {s t : State} (h : step s = .next t) :
    perform .step s = (.stepped (stepTrace s t), t) := by
  rw [perform, performStep, h]

/-- Settles O9: a Halted cycle answers the stop that its fault record names. -/
theorem haltedCycleHasNoStep : Obligations.HaltedCycleHasNoStep := by
  intro s hs
  refine ⟨fun hf => ?_, fun r hf => ?_, performStep_of_halted hs⟩
  · rw [step_of_halted hs, noStep, hf]
  · rw [step_of_halted hs, noStep, hf]

theorem exec_exists_next (i : Instr) (s : State) : ∃ t, exec i s = .next t := by
  obtain ⟨u, _, he⟩ | ⟨k, _, he⟩ := exec_cases i s
  · exact ⟨_, he⟩
  · exact ⟨_, he⟩

/-- Settles O10: the limit check, a fault of the fetch, a fault of decode and every instruction each have a next
state. -/
theorem runningStepAnswersNext : Obligations.RunningStepAnswersNext := by
  intro s hrun
  by_cases hl : s.limit ≤ sint s.pc
  · exact ⟨_, step_of_limit hrun hl⟩
  rw [not_le] at hl
  cases hf : memRead (uint s.pc) s with
  | error k => exact ⟨_, step_of_fetch_error hrun hl hf⟩
  | ok w =>
    cases hd : decode w with
    | error k => exact ⟨_, step_of_decode_error hrun hl hf hd⟩
    | ok i =>
      rw [step_of_decode_ok hrun hl hf hd]
      exact exec_exists_next i (latchIr w s)

end Sys2Proof.Machine
end

section
/-! PROOF. 60_exceptions.md section 3 and 10_state.md section 4: an instruction is precise, and does not depend on the
hidden state. -/

namespace Sys2Proof.Machine

/-- Settles O12: a handler that completes keeps the hidden state, and one that raises is followed by the fault entry
in the state before it. -/
theorem faultsArePrecise : Obligations.FaultsArePrecise := by
  intro i s
  obtain ⟨u, hu, he⟩ | ⟨k, _, he⟩ := exec_cases i s
  · exact ⟨_, he, .inl (cycleKept_advancePc_of_handler_ok hu)⟩
  · exact ⟨_, he, .inr ⟨k, rfl⟩⟩

/-- States that agree on what a program sees differ only in the hidden part. -/
theorem eq_withHidden_of_sameVisible {s s' : State} (h : SameVisible s s') : s' = withHidden s'.hidden s := by
  obtain ⟨hregs, hpc, hmem⟩ := h
  obtain ⟨hax, hbx, hcx⟩ : s'.ax = s.ax ∧ s'.bx = s.bx ∧ s'.cx = s.cx := ⟨hregs .ax, hregs .bx, hregs .cx⟩
  obtain ⟨hsp, hbp, hma⟩ : s'.sp = s.sp ∧ s'.bp = s.bp ∧ s'.ma = s.ma := ⟨hregs .sp, hregs .bp, hregs .ma⟩
  cases s
  cases s'
  simp_all [withHidden, State.hidden]

theorem sameVisible_withHidden (h : Hidden) (s : State) : SameVisible s (withHidden h s) :=
  ⟨fun r => readReg_withHidden r h s, rfl, rfl⟩

theorem sameVisible_advancePc {s t : State} (h : SameVisible s t) : SameVisible (advancePc s) (advancePc t) := by
  obtain ⟨hregs, hpc, hmem⟩ := h
  refine ⟨fun r => ?_, ?_, hmem⟩
  · rw [readReg_advancePc, readReg_advancePc, hregs r]
  · rw [advancePc_pc, advancePc_pc, hpc]

theorem sameVisible_takeFault {s t : State} (h : SameVisible s t) (k : FaultKind) :
    SameVisible (takeFault k s) (takeFault k t) := by
  obtain ⟨hregs, hpc, hmem⟩ := h
  refine ⟨fun r => ?_, hpc, hmem⟩
  rw [readReg_takeFault, readReg_takeFault, hregs r]

/-- Settles O15: a handler commutes with replacing the hidden state, so both states complete, to states that differ in
the hidden part alone, or both raise the same fault. -/
theorem hiddenStateIsNeverRead : Obligations.HiddenStateIsNeverRead := by
  intro i s s' hsame
  have hh : handler i s' = (handler i s).map (withHidden s'.hidden) := by
    rw [eq_withHidden_of_sameVisible hsame, handler_withHidden, hidden_withHidden]
  obtain ⟨u, hu, he⟩ | ⟨k, hk, he⟩ := exec_cases i s
  · rw [hu] at hh
    exact ⟨_, _, he, exec_of_handler_ok hh, sameVisible_advancePc (sameVisible_withHidden _ u)⟩
  · rw [hk] at hh
    exact ⟨_, _, he, exec_of_handler_error hh, sameVisible_takeFault hsame k⟩

end Sys2Proof.Machine
end

section
/-! PROOF. 60_exceptions.md R176: what ends a run. -/

namespace Sys2Proof.Machine

/-- A step from Running to Halted is a limit halt, or records a fault at its own pc. -/
theorem halt_of_step {s t : State} (hrun : s.status = .running) (h : step s = .next t) (ht : t.status = .halted) :
    (s.limit ≤ sint s.pc ∧ t.fault = s.fault) ∨ ∃ r, t.fault = some r ∧ r.fpc = s.pc := by
  obtain ⟨_, ⟨hl, rfl⟩ | ⟨_, k, _, rfl⟩ | ⟨_, w, k, _, _, rfl⟩ | ⟨_, w, i, _, _, he⟩⟩ := step_cases h
  · exact .inl ⟨hl, rfl⟩
  · exact .inr ⟨_, rfl, rfl⟩
  · exact .inr ⟨_, rfl, rfl⟩
  · rw [exec_eq_finish_handler] at he
    obtain ⟨u, hu, rfl⟩ | ⟨k, _, rfl⟩ := finish_next he
    · obtain ⟨_, _, hstatus, _, _⟩ := cycleKept_advancePc_of_handler_ok hu
      rw [ht, latchIr_status, hrun] at hstatus
      cases hstatus
    · exact .inr ⟨_, rfl, rfl⟩

theorem wrap16_uint (w : Word) : wrap16 (uint w) = w := by
  have hmod : uint w % 65536 = sint w % 65536 := by
    rw [sint_eq_uint]
    split <;> omega
  exact ((wrap16_eq_iff _ _).mpr hmod).trans (wrap16_sint w)

/-- About to run a jump to its own address. -/
structure SelfJump (s : State) (w : Word) (tgt : Nat) : Prop where
  about : AboutToFetch s
  word : memRead (uint s.pc) s = .ok w
  decodes : decode w = .ok (.jmp tgt)
  self : uint s.pc = tgt

/-- A jump to its own address is about to run again after its step, at the same pc. -/
theorem SelfJump.step {s : State} {w : Word} {tgt : Nat} (h : SelfJump s w tgt) :
    ∃ t, Machine.step s = .next t ∧ t.pc = s.pc ∧ SelfJump t w tgt := by
  obtain ⟨⟨hrun, hlimit⟩, hf, hd, hself⟩ := h
  obtain ⟨t, he, ⟨_, _, hstatus, _, hlim⟩, _, hpc, hmem⟩ := jmpGoesToTheTarget.2 tgt (latchIr w s)
  have hback : t.pc = s.pc := by
    rw [hpc, ← hself, wrap16_uint]
  refine ⟨t, (step_of_decode_ok hrun hlimit hf hd).trans he, hback, ⟨hstatus.trans hrun, ?_⟩, ?_, hd, ?_⟩
  · rw [hback, hlim]
    exact hlimit
  · rw [hback, hmem, memRead_congr (latchIr_mem w s), hf]
  · rw [hback, hself]

/-- It is so after every number of steps. -/
theorem SelfJump.run {w : Word} {tgt : Nat} (k : Nat) {s : State} (h : SelfJump s w tgt) :
    ∃ t, core.run k s = .next t ∧ t.status = .running ∧ t.pc = s.pc := by
  induction k generalizing s with
  | zero => exact ⟨s, rfl, h.about.1, rfl⟩
  | succ k ih =>
    obtain ⟨u, hstep, hupc, hu⟩ := h.step
    obtain ⟨t, hrun, hstatus, htpc⟩ := ih hu
    exact ⟨t, (run_succ_of_next core k hstep).trans hrun, hstatus, htpc.trans hupc⟩

/-- While Running no transaction but reset and step changes the state: the others act only while Halted. -/
theorem perform_of_running {τ : Transaction} {s : State} (hrun : s.status = .running) (hreset : τ ≠ .reset)
    (hstep : τ ≠ .step) : (perform τ s).2 = s := by
  rcases perform_cases τ s with h | ⟨hτ, _⟩ | ⟨a, w, t, _, hs, _⟩ | ⟨start, limit, _, hs, _⟩ | ⟨t, hτ, _⟩
  · exact h
  · exact absurd hτ hreset
  · rw [hrun] at hs; cases hs
  · rw [hrun] at hs; cases hs
  · exact absurd hτ hstep

/-- Settles O11: of the cases of a step only the limit halt and the fault entry write Halted, a jump to itself keeps
all that its next step reads, and the host acts only while Halted. -/
theorem onlyTheLimitOrAFaultEndsARun : Obligations.OnlyTheLimitOrAFaultEndsARun :=
  ⟨fun _ _ hrun h ht => halt_of_step hrun h ht,
    fun _ _ _ habout hf hd hself k => SelfJump.run k ⟨habout, hf, hd, hself⟩,
    fun _ _ hrun hreset hstep => perform_of_running hrun hreset hstep⟩

end Sys2Proof.Machine
end

section
/-! PROOF. 20_memory.md sections 3 and 7, and the canonical form of memory. -/

namespace Sys2Proof.Machine

/-- A write at an address with storage completes: it changes only memory, reads back, and is seen nowhere else. -/
theorem memWrite_spec {a : Int} (h0 : 0 ≤ a) (h1 : a < 32768) (v : Word) (s : State) :
    ∃ t, memWrite a v s = .ok t ∧ memRead a t = .ok v ∧ MemKeptBut a s t ∧ OnlyMemory s t := by
  refine ⟨_, memWrite_backed h0 h1 v s, ?_, fun b hb => ?_, rfl⟩
  · rw [memRead_of_write h0 h1 rfl, if_pos rfl]
  · rw [memRead_of_write h0 h1 rfl, if_neg hb]

/-- Settles O18: at an address with storage a write completes and is read back there alone; at any other both
accesses fault. -/
theorem memoryReadsTheLastWrite : Obligations.MemoryReadsTheLastWrite := by
  refine fun a v s => ⟨fun h0 h1 => memWrite_spec h0 (by omega) v s, fun hout => ?_⟩
  have hun : ¬ (0 ≤ a ∧ a < 32768) := by omega
  exact ⟨memRead_unbacked hun s, memWrite_unbacked hun v s⟩

/-- An address below every listed one is not listed. -/
theorem Memory.read_of_lt_all {m : Memory} {a : Nat} (h : ∀ c ∈ m, a < c.1) : m.read a = Memory.unlisted := by
  induction m with
  | nil => rfl
  | cons c m ih =>
    obtain ⟨b, u⟩ := c
    have hab : a < b := h (b, u) List.mem_cons_self
    rw [Memory.read, if_neg (Nat.ne_of_lt hab), ih fun c hc => h c (List.mem_cons_of_mem _ hc)]

/-- The first listed address reads as its own word. -/
theorem Memory.read_head {a : Nat} {v : Word} {m : Memory} : Memory.read ((a, v) :: m) a = v := by
  rw [Memory.read, if_pos rfl]

/-- Where two canonical memories agree at the first address of one, the other begins no higher: below its first
address it reads as unlisted. -/
theorem Memory.head_le_of_read_eq {a b : Nat} {v u : Word} {m m' : Memory} (hm : Memory.wf ((a, v) :: m) = true)
    (hm' : Memory.wf ((b, u) :: m') = true) (hread : Memory.read ((a, v) :: m) a = Memory.read ((b, u) :: m') a) :
    b ≤ a := by
  obtain ⟨_, hv, _, _⟩ := Memory.wf_cons.mp hm
  obtain ⟨_, _, hlt, _⟩ := Memory.wf_cons.mp hm'
  by_contra hab
  rw [not_le] at hab
  have hnot : Memory.read ((b, u) :: m') a = Memory.unlisted :=
    Memory.read_of_lt_all fun c hc => by
      rcases List.mem_cons.mp hc with rfl | hc
      · exact hab
      · exact hab.trans (hlt c hc)
  rw [Memory.read_head, hnot] at hread
  exact hv hread

/-- Settles O19, by induction on both lists: they begin at the same address, each being the lowest that does not read
as unlisted, with the same word there. -/
theorem canonicalMemoriesAreExtensional : Obligations.CanonicalMemoriesAreExtensional := by
  intro m
  induction m with
  | nil =>
    intro m' _ hm' hread
    cases m' with
    | nil => rfl
    | cons c m' =>
      obtain ⟨b, u⟩ := c
      obtain ⟨_, hu, _, _⟩ := Memory.wf_cons.mp hm'
      exact absurd (Memory.read_head.symm.trans (hread b).symm) hu
  | cons c m ih =>
    obtain ⟨a, v⟩ := c
    intro m' hm hm' hread
    obtain ⟨_, hv, hlt, hw⟩ := Memory.wf_cons.mp hm
    cases m' with
    | nil => exact absurd (Memory.read_head.symm.trans (hread a)) hv
    | cons c' m' =>
      obtain ⟨b, u⟩ := c'
      obtain ⟨_, _, hlt', hw'⟩ := Memory.wf_cons.mp hm'
      obtain rfl : a = b :=
        le_antisymm (Memory.head_le_of_read_eq hm' hm (hread b).symm) (Memory.head_le_of_read_eq hm hm' (hread a))
      obtain rfl : v = u := Memory.read_head.symm.trans ((hread a).trans Memory.read_head)
      refine congrArg (List.cons (a, v)) (ih m' hw hw' fun x => ?_)
      by_cases hx : x = a
      · rw [hx, Memory.read_of_lt_all hlt, Memory.read_of_lt_all hlt']
      · have hx' := hread x
        rwa [Memory.read, if_neg hx, Memory.read, if_neg hx] at hx'

end Sys2Proof.Machine
end

section
/-! PROOF. 40_arith_move.md R101, R104 and R107: nop, mult, and sub after add. -/

namespace Sys2Proof.Machine

/-- Settles O20: opcode 0 has format N, and the handler writes nothing. -/
theorem nopChangesOnlyThePc : Obligations.NopChangesOnlyThePc :=
  ⟨formatN_of_decodeAs fun _ => rfl, fun _ => completes_of_handler rfl (fun _ _ => rfl) ⟨rfl, memRead_congr rfl⟩⟩

/-- Settles O23: opcode 3 has format A, and the handler writes the wrapped product to the destination alone. -/
theorem multKeepsTheLowHalfOfTheProduct : Obligations.MultKeepsTheLowHalfOfTheProduct :=
  ⟨formatA_of_decodeAs fun _ => rfl, fun _ _ _ => completes_of_handler_writeReg rfl⟩

/-- A source other than the destination keeps its value. -/
theorem val8_of_regsKeptBut {src : Src8} {d : Reg} {s t : State} (hsrc : src ≠ .reg d) (h : RegsKeptBut [d] s t) :
    val8 src t = val8 src s := by
  cases src with
  | imm8 n => rfl
  | reg r => exact h r fun hr => hsrc (congrArg Src8.reg (List.mem_singleton.mp hr))

/-- Settles O27: a wrap inside the difference makes none to the wrapped difference, so where the second operand keeps
its value it cancels; where it is the destination it is the sum itself. -/
theorem addThenSubIsTheIdentity : Obligations.AddThenSubIsTheIdentity := by
  intro src d s
  obtain ⟨u, hadd, _, hkeptAdd, hsum, _, _⟩ := addWrapsTheExactSum.2 src d s
  obtain ⟨t, hsub, _, hkeptSub, hdiff, _, _⟩ := subWrapsTheExactDifference.2 src d u
  have hkept : RegsKeptBut [d] s t := fun r hr => (hkeptSub r hr).trans (hkeptAdd r hr)
  refine ⟨u, t, hadd, hsub, fun hsrc r => ?_, fun hsrc => ⟨?_, hkept⟩⟩
  · by_cases hr : r = d
    · subst hr
      rw [hdiff, hsum, val8_of_regsKeptBut hsrc hkeptAdd, sub_eq_add_neg, wrap16_sint_wrap16_add,
        add_neg_cancel_right, wrap16_sint]
    · exact hkept r (mt List.mem_singleton.mp hr)
  · have hval : val8 src u = readReg d u := by rw [hsrc, val8]
    rw [hdiff, hval, sub_self]
    rfl

end Sys2Proof.Machine
end

section
/-! PROOF. 41_stack.md R121 and R124, 42_load_store.md R130 and R131, 43_control.md R144 and R145: push, load, store,
call and ret. -/

namespace Sys2Proof.Machine

/-- A handler that raises makes the instruction take the whole fault entry. -/
theorem raisesPrecisely_of_handler {i : Instr} {s : State} {k : FaultKind} (hk : handler i s = .error k) :
    RaisesPrecisely i s k :=
  ⟨_, exec_of_handler_error hk, rfl⟩

theorem pushWord_of_full (v : Word) {s : State} (h : 12288 ≤ sint s.sp) : pushWord v s = .error .stackOverflow := by
  rcases pushWord_cases v s with ⟨_, hp⟩ | ⟨hneg, _⟩ | ⟨_, hroom, _⟩
  · exact hp
  · omega
  · omega

theorem pushWord_of_negative (v : Word) {s : State} (h : sint s.sp < 0) :
    pushWord v s = .error .segmentationFault := by
  rcases pushWord_cases v s with ⟨hfull, _⟩ | ⟨_, hp⟩ | ⟨hnonneg, _, _⟩
  · omega
  · exact hp
  · omega

theorem popWord_of_empty (k : FaultKind) {s : State} (h : sint s.sp ≤ 4096) : popWord k s = .error k := by
  rcases popWord_cases k s with ⟨_, hp⟩ | ⟨hne, _⟩
  · exact hp
  · omega

/-- Settles O28: opcode 5 has format S; a full stack and a negative sp make the push of the word raise, and otherwise
it is stored at `uint(sp)`. -/
theorem pushStoresAtSpThenIncrements : Obligations.PushStoresAtSpThenIncrements :=
  ⟨formatS_of_decodeAs fun _ => rfl, fun src _ =>
    ⟨fun hfull => raisesPrecisely_of_handler (i := .push src) (pushWord_of_full _ hfull),
      fun hneg => raisesPrecisely_of_handler (i := .push src) (pushWord_of_negative _ hneg), completes_push src⟩⟩

theorem handler_call_of_error {t : Nat} {s : State} {k : FaultKind} (h : pushWord s.pc s = .error k) :
    handler (.call t) s = .error k :=
  except_map_eq_error_iff.mpr h

/-- Settles O39: opcode 14 has format B; the saved address is pushed as push does, and the increment after the handler
lands on the target. -/
theorem callSavesItsOwnAddress : Obligations.CallSavesItsOwnAddress :=
  ⟨formatB_of_decodeAs fun _ => rfl, fun t s =>
    ⟨fun hfull => raisesPrecisely_of_handler (handler_call_of_error (pushWord_of_full s.pc hfull)),
      fun hneg => raisesPrecisely_of_handler (handler_call_of_error (pushWord_of_negative s.pc hneg)),
      completes_call t⟩⟩

theorem handler_ret_of_empty {s : State} (h : sint s.sp ≤ 4096) : handler .ret s = .error .stackOverflow :=
  except_map_eq_error_iff.mpr (popWord_of_empty .stackOverflow h)

/-- Settles O40: opcode 15 has format N; an empty stack makes the pop raise StackOverflow, and otherwise the increment
after the handler lands one past the popped address. -/
theorem retResumesAfterThePoppedAddress : Obligations.RetResumesAfterThePoppedAddress :=
  ⟨formatN_of_decodeAs fun _ => rfl, fun _ =>
    ⟨fun he => raisesPrecisely_of_handler (handler_ret_of_empty he), completes_ret⟩⟩

/-- Settles O33: opcode 8 has format D; no storage exists from 32768 on, and otherwise the handler writes the word
read to the destination alone. -/
theorem loadReadsAtMa : Obligations.LoadReadsAtMa := by
  refine ⟨formatD_of_decodeAs fun _ => rfl, fun d s => ⟨fun hout => ?_, fun hin => ?_⟩⟩
  · have hr : memRead (effAddr s) s = .error .segmentationFault :=
      memRead_unbacked (not_and_of_not_right _ hout.not_gt) s
    exact raisesPrecisely_of_handler (i := .load d) (except_map_eq_error_iff.mpr hr)
  · have hr : memRead (uint s.ma) s = .ok (s.mem.read (uint s.ma).toNat) := memRead_backed (uint_nonneg _) hin s
    have hu : handler (.load d) s = .ok (writeReg d (s.mem.read (uint s.ma).toNat) s) :=
      except_map_eq_ok_iff.mpr ⟨_, hr, rfl⟩
    obtain ⟨t, he, hcycle, hregs, hval, hnext, hmem⟩ := completes_of_handler_writeReg hu
    exact ⟨t, he, hcycle, hregs, hr.trans (congrArg Except.ok hval.symm), hnext, hmem⟩

/-- Below 32768 store completes: the write is seen at its address alone, and no register changes. -/
theorem completes_store (src : Src11) {s : State} (hin : uint s.ma < 32768) :
    Completes (.store src) s [] fun t =>
      memRead (effAddr s) t = .ok (val11 src s) ∧ MemKeptBut (effAddr s) s t ∧ NextPc s t := by
  obtain ⟨u, hw, hread, hkept, honly⟩ := memWrite_spec (uint_nonneg s.ma) hin (val11 src s) s
  refine completes_of_handler (i := .store src) hw (fun r _ => ?_) ⟨hread, hkept, ?_⟩
  · rw [honly, readReg_withMem]
  · rw [NextPc, advancePc_pc, honly]

/-- Settles O34: opcode 9 has format S; no storage exists from 32768 on, and otherwise the handler is a memory write at
`uint(ma)`. -/
theorem storeWritesAtMa : Obligations.StoreWritesAtMa := by
  refine ⟨formatS_of_decodeAs fun _ => rfl, fun src s => ⟨rfl, fun hout => ?_, completes_store src⟩⟩
  have hw : memWrite (effAddr s) (val11 src s) s = .error .segmentationFault :=
    memWrite_unbacked (not_and_of_not_right _ hout.not_gt) (val11 src s) s
  exact raisesPrecisely_of_handler (i := .store src) hw

end Sys2Proof.Machine
end

section
/-! PROOF. 20_memory.md R52: a stored word is the next one to run. -/

namespace Sys2Proof.Machine

theorem val11_latchIr (src : Src11) (w : Word) (s : State) : val11 src (latchIr w s) = val11 src s :=
  val11_withHidden src { s.hidden with ir := w } s

/-- A wrapped pc is no higher than the number it wraps. -/
theorem sint_wrap16_succ_le (w : Word) : sint (wrap16 (sint w + 1)) ≤ sint w + 1 := by
  have hbound := sint_bounds w
  rw [sint_eq_uint, uint_wrap16]
  split <;> omega

/-- Settles O35: the store keeps the limit and moves the pc to the address it has written, and where the pc wraps it
falls below the limit. -/
theorem storedWordIsFetchedNext : Obligations.StoredWordIsFetchedNext := by
  intro s w src ⟨hrun, hlimit⟩ hf hd haddr hin hnextLimit
  obtain ⟨t, he, ⟨_, _, hstatus, _, hlim⟩, _, hread, _, hnext⟩ := completes_store src (s := latchIr w s) hin
  have htpc : t.pc = wrap16 (sint s.pc + 1) := hnext
  have habout : AboutToFetch t := by
    refine ⟨hstatus.trans hrun, ?_⟩
    have hle := sint_wrap16_succ_le s.pc
    rw [htpc, hlim, latchIr_limit]
    omega
  have hfetch : memRead (uint t.pc) t = .ok (val11 src s) := by
    rw [htpc, ← haddr, ← val11_latchIr src w s]
    exact hread
  exact ⟨t, (step_of_decode_ok hrun hlimit hf hd).trans he, habout, hfetch,
    fun i hi => stepRunsTheDecodedInstruction t _ i habout hfetch hi⟩

end Sys2Proof.Machine
end

section
/-! PROOF. 41_stack.md R124: what can take sp out of [4096, 12288]. -/

namespace Sys2Proof.Machine

/-- An instruction of the ALU/mov class, or load, with destination sp. -/
def WritesSp (i : Instr) : Prop :=
  i = .load .sp ∨ ∃ src, i = .add src .sp ∨ i = .sub src .sp ∨ i = .mult src .sp ∨ i = .div src .sp ∨ i = .mov src .sp

theorem SpInBounds.of_sp_eq {s t : State} (hs : SpInBounds s) (h : t.sp = s.sp) : SpInBounds t := by
  unfold SpInBounds at hs ⊢
  rwa [h]

/-- Only a write of sp itself moves sp. -/
theorem SpInBounds.writeReg_of_ne {s : State} (hs : SpInBounds s) {d : Reg} (hd : d ≠ .sp) (v : Word) :
    SpInBounds (writeReg d v s) :=
  hs.of_sp_eq (readReg_writeReg_of_ne hd.symm v s)

theorem spInBounds_of_sp_eq_wrap16 {t : State} {n : Int} (h : t.sp = wrap16 n) (h0 : 4096 ≤ n) (h1 : n ≤ 12288) :
    SpInBounds t := by
  have hsp : sint t.sp = n := by rw [h, sint_wrap16 (by omega) (by omega)]
  exact ⟨hsp ▸ h0, hsp ▸ h1⟩

/-- A push that completes begins below the limit, so it ends at most there. -/
theorem SpInBounds.pushWord {s t : State} (hs : SpInBounds s) {v : Word} (h : Machine.pushWord v s = .ok t) :
    SpInBounds t := by
  obtain ⟨hlo, _⟩ := hs
  rcases pushWord_cases v s with ⟨_, hp⟩ | ⟨_, hp⟩ | ⟨_, hroom, hp⟩ <;> rw [hp] at h
  · cases h
  · cases h
  · rw [← Except.ok.inj h]
    exact spInBounds_of_sp_eq_wrap16 rfl (by omega) (by omega)

/-- A pop that completes begins above the base, so it ends at least there. -/
theorem SpInBounds.popWord {s : State} (hs : SpInBounds s) {k : FaultKind} {p : Word × State}
    (h : Machine.popWord k s = .ok p) : SpInBounds p.2 := by
  obtain ⟨_, hhi⟩ := hs
  rcases popWord_cases k s with ⟨_, hp⟩ | ⟨hne, hp⟩ <;> rw [hp] at h
  · cases h
  · rw [← Except.ok.inj h]
    exact spInBounds_of_sp_eq_wrap16 rfl (by omega) (by omega)

/-- A handler that completes keeps sp in bounds, or its instruction writes sp: the others with a destination write a
different register, and the stack's own accesses check their bound. -/
theorem SpInBounds.handler {i : Instr} {s u : State} (hs : SpInBounds s) (h : Machine.handler i s = .ok u) :
    SpInBounds u ∨ WritesSp i := by
  cases i with
  | nop | jmp => exact .inl (Except.ok.inj h ▸ hs)
  | jnz | jz | jn =>
    rw [← Except.ok.inj h]
    exact .inl (hs.of_sp_eq (readReg_branchIf .sp _ _ s))
  | add src d | sub src d | mult src d | mov src d =>
    rw [← Except.ok.inj h]
    by_cases hd : d = .sp
    · exact .inr (by simp [WritesSp, hd])
    · exact .inl (hs.writeReg_of_ne hd _)
  | div src d =>
    rw [Machine.handler] at h
    split at h
    · cases h
    · rw [← Except.ok.inj h]
      by_cases hd : d = .sp
      · exact .inr (by simp [WritesSp, hd])
      · exact .inl ((hs.writeReg_of_ne hd _).writeReg_of_ne (by decide) _)
  | load d =>
    obtain ⟨v, _, rfl⟩ := except_map_eq_ok_iff.mp h
    by_cases hd : d = .sp
    · exact .inr (.inl (congrArg Instr.load hd))
    · exact .inl (hs.writeReg_of_ne hd v)
  | store src =>
    obtain ⟨_, rfl⟩ := memWrite_ok h
    exact .inl hs
  | push src => exact .inl (hs.pushWord h)
  | call t =>
    obtain ⟨v, hv, rfl⟩ := except_map_eq_ok_iff.mp h
    have hpushed : SpInBounds v := hs.pushWord hv
    exact .inl hpushed
  | pop d =>
    rw [Machine.handler] at h
    split at h
    · cases h
    · next hd =>
      obtain ⟨p, hp, rfl⟩ := except_map_eq_ok_iff.mp h
      exact .inl ((hs.popWord hp).writeReg_of_ne hd p.1)
  | ret =>
    obtain ⟨p, hp, rfl⟩ := except_map_eq_ok_iff.mp h
    exact .inl (hs.popWord hp)

/-- Settles O31: the increment and the fault entry leave sp alone, and a handler that completes keeps it in bounds
unless its instruction writes sp. -/
theorem onlyAluAndLoadMoveSpOutOfBounds : Obligations.OnlyAluAndLoadMoveSpOutOfBounds := by
  intro i s t hs h
  rw [exec_eq_finish_handler] at h
  obtain ⟨u, hu, rfl⟩ | ⟨k, _, rfl⟩ := finish_next h
  · have hdone : SpInBounds u ∨ WritesSp i := hs.handler hu
    exact hdone
  · exact .inl hs

end Sys2Proof.Machine
end

section
/-! PROOF. 41_stack.md R125: pushes in a row from the stack base. -/

namespace Sys2Proof.Machine

/-- One more execution at the end of a row. -/
theorem repeatExec_succ {i : Instr} {n : Nat} {s t u : State} (hrow : repeatExec i n s = .next t)
    (h : exec i t = .next u) : repeatExec i (n + 1) s = .next u := by
  induction n generalizing s with
  | zero =>
    obtain rfl : s = t := by injection hrow
    rw [repeatExec, h]
    rfl
  | succ n ih =>
    rw [repeatExec] at hrow ⊢
    cases he : exec i s with
    | next v =>
      rw [he] at hrow
      exact ih hrow
    | fault r => rw [he] at hrow; cases hrow
    | refused r => rw [he] at hrow; cases hrow

/-- The word that the push numbered `k` stores. -/
def pushedWord (src : Src11) (s : State) (k : Nat) : Word :=
  if src = .reg .sp then wrap16 (4096 + k) else val11 src s

/-- What `n` pushes from the stack base leave. -/
structure Pushed (src : Src11) (s : State) (n : Nat) (t : State) : Prop where
  cycle : CycleKept s t
  sp : sint t.sp = 4096 + n
  regs : RegsKeptBut [.sp] s t
  words : ∀ k : Nat, k < n → memRead (4096 + k) t = .ok (pushedWord src s k)
  others : ∀ a : Int, a < 4096 ∨ 4096 + n ≤ a → memRead a t = memRead a s

/-- The source of the next push: sp itself has moved, and every other source is as it was. -/
theorem Pushed.val11_eq {src : Src11} {s t : State} {n : Nat} (h : Pushed src s n t) :
    val11 src t = pushedWord src s n := by
  unfold pushedWord
  split
  · next hsrc => rw [hsrc, val11, ← h.sp]; exact (wrap16_sint t.sp).symm
  · next hsrc =>
    cases src with
    | imm11 n => rfl
    | reg r => exact h.regs r fun hr => hsrc (congrArg Src11.reg (List.mem_singleton.mp hr))

theorem CycleKept.trans {s t u : State} (h : CycleKept s t) (h' : CycleKept t u) : CycleKept s u := by
  obtain ⟨hir, hidle, hstatus, hfault, hlimit⟩ := h
  obtain ⟨hir', hidle', hstatus', hfault', hlimit'⟩ := h'
  exact ⟨hir'.trans hir, hidle'.trans hidle, hstatus'.trans hstatus, hfault'.trans hfault, hlimit'.trans hlimit⟩

/-- With room on the stack one more push completes. -/
theorem Pushed.succ {src : Src11} {s t : State} {n : Nat} (h : Pushed src s n t) (hn : n < 8192) :
    ∃ u, exec (.push src) t = .next u ∧ Pushed src s (n + 1) u := by
  have hsp := h.sp
  obtain ⟨u, he, hcycle, hregs, husp, htop, hkept, _⟩ := completes_push src (s := t) (by omega) (by omega)
  have haddr : uint t.sp = 4096 + n := by rw [uint_of_nonneg (by omega), hsp]
  rw [haddr] at htop hkept
  refine ⟨u, he, h.cycle.trans hcycle, ?_, fun r hr => (hregs r hr).trans (h.regs r hr), fun k hk => ?_, fun a ha => ?_⟩
  · rw [husp, sint_wrap16 (by omega) (by omega), hsp]
    push_cast
    ring
  · by_cases hlast : k = n
    · rw [hlast, htop, h.val11_eq]
    · rw [hkept _ (by omega), h.words k (by omega)]
  · rw [hkept a (by omega), h.others a (by omega)]

theorem repeatExec_push (src : Src11) {s : State} (hs : sint s.sp = 4096) (n : Nat) (hn : n ≤ 8192) :
    ∃ t, repeatExec (.push src) n s = .next t ∧ Pushed src s n t := by
  induction n with
  | zero =>
    have hsp : sint s.sp = 4096 + (0 : Nat) := by omega
    exact ⟨s, rfl, ⟨rfl, rfl, rfl, rfl, rfl⟩, hsp, fun _ _ => rfl, fun _ hk => absurd hk (Nat.not_lt_zero _),
      fun _ _ => rfl⟩
  | succ n ih =>
    obtain ⟨t, hrow, ht⟩ := ih (by omega)
    obtain ⟨u, he, hu⟩ := ht.succ (by omega)
    exact ⟨u, repeatExec_succ hrow he, hu⟩

/-- Settles O32, by induction on the number of pushes: each stores at the address where the ones before it end, and
after 8192 of them sp is at the limit. -/
theorem eightThousandPushesFillTheStack : Obligations.EightThousandPushesFillTheStack := by
  intro src s n hs hn
  obtain ⟨t, hrow, ht⟩ := repeatExec_push src hs n hn
  refine ⟨t, hrow, ht.cycle, ht.sp, ht.regs, ht.words, ht.others, fun hfull => ?_⟩
  have hsp := ht.sp
  obtain ⟨_, hpush⟩ := pushStoresAtSpThenIncrements
  obtain ⟨hoverflow, _⟩ := hpush src t
  exact hoverflow (by omega)

end Sys2Proof.Machine
end

section
/-! PROOF. 70_reset_and_hazards.md and 60_exceptions.md R173, R181: reset, the host's transactions, the loader and the
ports. -/

namespace Sys2Proof.Machine

/-! ### Reset -/

/-- Settles O1: the registers are fields of the reset state, and its memory lists no address. -/
theorem resetGivesTheSpecifiedValues : Obligations.ResetGivesTheSpecifiedValues :=
  ⟨rfl, rfl, rfl, rfl, rfl, rfl, rfl, rfl, rfl, rfl, rfl, fun _ h0 h1 =>
    memRead_backed h0 (Int.lt_of_le_of_lt h1 (by decide)) State.reset⟩

/-! ### The guard of the host's transactions -/

theorem whenHalted_of_halted {α : Type} {s : State} (hs : s.status = .halted) (act : Except HostRefusal α) :
    whenHalted s act = act := by
  rw [whenHalted, hs]

theorem whenHalted_of_running {α : Type} {s : State} (hs : s.status = .running) (act : Except HostRefusal α) :
    whenHalted s act = .error .running := by
  rw [whenHalted, hs]

/-- Settles O49: past the guard the fault record decides, and only an accepted command writes. -/
theorem runCommandStartsARun : Obligations.RunCommandStartsARun := by
  refine fun start limit s => ⟨fun hs hf => ?_, fun hs hf => ?_, fun hs => ?_⟩
  · rw [perform, runCommand, whenHalted_of_halted hs, show s.fault = none from hf]
    rfl
  · obtain ⟨r, hr⟩ := Option.ne_none_iff_exists'.mp hf
    rw [perform, runCommand, whenHalted_of_halted hs, hr]
    rfl
  · rw [perform, runCommand, whenHalted_of_running hs]
    rfl

/-! ### The host path -/

/-- While Halted a host write at an address with storage is a memory write. -/
theorem hostWrite_spec {a : Int} {s : State} (hs : s.status = .halted) (h0 : 0 ≤ a) (h1 : a < 32768) (w : Word) :
    ∃ t, hostWrite a w s = .ok t ∧ memRead a t = .ok w ∧ MemKeptBut a s t ∧ OnlyMemory s t := by
  obtain ⟨t, hw, hspec⟩ := memWrite_spec h0 h1 w s
  refine ⟨t, ?_, hspec⟩
  rw [hostWrite, whenHalted_of_halted hs, hw]
  rfl

theorem hostRead_of_memRead_ok {a : Int} {s : State} {v : Word} (hs : s.status = .halted)
    (h : memRead a s = .ok v) : hostRead a s = .ok v := by
  rw [hostRead, whenHalted_of_halted hs, h]
  rfl

theorem hostWrite_outOfRange {a : Int} {s : State} (hs : s.status = .halted) (h : ¬ (0 ≤ a ∧ a < 32768)) (w : Word) :
    hostWrite a w s = .error .outOfRange := by
  rw [hostWrite, whenHalted_of_halted hs, memWrite_unbacked h]
  rfl

theorem hostRead_outOfRange {a : Int} {s : State} (hs : s.status = .halted) (h : ¬ (0 ≤ a ∧ a < 32768)) :
    hostRead a s = .error .outOfRange := by
  rw [hostRead, whenHalted_of_halted hs, memRead_unbacked h]
  rfl

/-- Settles O50: while Halted the host path is the memory's own accesses, with their fault as a refusal; while Running
the guard refuses. -/
theorem hostPathActsOnlyWhileHalted : Obligations.HostPathActsOnlyWhileHalted := by
  refine fun s a w i => ⟨fun hs h0 h1 => ⟨?_, ?_⟩, fun hs => ?_, fun hs hout => ⟨?_, ?_⟩, fun hs => ⟨?_, ?_, ?_⟩⟩
  · obtain ⟨t, hw, hread, hkept, honly⟩ := hostWrite_spec hs h0 (by omega) w
    exact ⟨t, by rw [perform, hw, performWrite], honly, hread, hkept⟩
  · have hr : memRead a s = .ok (s.mem.read a.toNat) := memRead_backed h0 (by omega) s
    exact ⟨_, hr, by rw [perform, hostRead_of_memRead_ok hs hr, performRead]⟩
  · rw [perform, regRead, whenHalted_of_halted hs, performRead]
  · rw [perform, hostWrite_outOfRange hs (by omega), performWrite]
  · rw [perform, hostRead_outOfRange hs (by omega), performRead]
  · rw [perform, hostWrite, whenHalted_of_running hs, performWrite]
  · rw [perform, hostRead, whenHalted_of_running hs, performRead]
  · rw [perform, regRead, whenHalted_of_running hs, performRead]

/-- Settles O51: with a fault recorded the run command is refused and a Halted cycle has no step, so that a host write
is the only change but reset, and it is of memory alone. -/
theorem onlyResetClearsAFault : Obligations.OnlyResetClearsAFault := by
  refine fun τ s r hf hs => ⟨fun hτ => ?_, fun hτ => ?_⟩
  · rcases perform_cases τ s with h | ⟨hr, _⟩ | ⟨a, w, t, _, _, hw, h⟩ | ⟨_, _, _, _, hnone, _⟩ | ⟨t, _, ht, _⟩
    · rw [h]
      exact ⟨hf, hs, rfl, fun _ => rfl⟩
    · exact absurd hr hτ
    · obtain ⟨_, rfl⟩ := memWrite_ok hw
      rw [h]
      exact ⟨hf, hs, rfl, fun q => readReg_withMem q _ s⟩
    · rw [hf] at hnone
      cases hnone
    · rw [step_of_halted hs] at ht
      cases ht
  · rw [hτ]
    exact ⟨rfl, rfl⟩

/-! ### The loader -/

theorem OnlyMemory.trans {s t u : State} (h : OnlyMemory s t) (h' : OnlyMemory t u) : OnlyMemory s u := by
  unfold OnlyMemory at h h' ⊢
  rw [h', h]

theorem OnlyMemory.status_eq {s t : State} (h : OnlyMemory s t) : t.status = s.status := by
  rw [h]

/-- A load from `a` on of words that all have storage puts each at its place, and changes nothing else: each word is
written before the later ones, which lie above it. -/
theorem loadFrom_spec (ws : List Word) {a : Int} {s : State} (hs : s.status = .halted) (h0 : 0 ≤ a)
    (h1 : a + ws.length ≤ 32768) :
    ∃ t, loadFrom a ws s = .ok t ∧ OnlyMemory s t ∧
      (∀ (k : Nat) (h : k < ws.length), memRead (a + k) t = .ok ws[k]) ∧
      ∀ b : Int, b < a ∨ a + ws.length ≤ b → memRead b t = memRead b s := by
  induction ws generalizing a s with
  | nil => exact ⟨s, rfl, rfl, fun k hk => absurd hk (Nat.not_lt_zero k), fun _ _ => rfl⟩
  | cons w ws ih =>
    rw [List.length_cons] at h1
    obtain ⟨u, hw, hread, hkept, honly⟩ := hostWrite_spec hs h0 (by omega) w
    obtain ⟨t, hload, honly', hwords, hothers⟩ := ih (a := a + 1) (honly.status_eq.trans hs) (by omega) (by omega)
    refine ⟨t, ?_, honly.trans honly', fun k hk => ?_, fun b hb => ?_⟩
    · rw [loadFrom, hw]
      exact hload
    · cases k with
      | zero => rw [Nat.cast_zero, add_zero, hothers a (.inl (by omega)), hread]; rfl
      | succ k =>
        have hshift : a + (k + 1 : Nat) = a + 1 + k := by omega
        rw [hshift, hwords k (Nat.lt_of_succ_lt_succ hk)]
        rfl
    · rw [List.length_cons] at hb
      rw [hothers b (by omega), hkept b (by omega)]

/-- Settles O52: from address 1 on, 4095 words all have storage. -/
theorem loaderPlacesTheProgram : Obligations.LoaderPlacesTheProgram :=
  fun ws _ hs hlen => loadFrom_spec ws hs (by decide) (show (1 : Int) + ws.length ≤ 32768 by omega)

/-! ### The ports -/

/-- Settles O53: each part of the view is the record's, where there is one. -/
theorem statusPortShowsTheRecord : Obligations.StatusPortShowsTheRecord := by
  refine fun s => ⟨fun k fpc fir hf => ?_, fun hf => ?_, rfl⟩
  · rw [perform, statusPort, hf]
    rfl
  · rw [perform, statusPort, hf]
    rfl

theorem traceView_top_of_empty {s : State} (h : sint s.sp ≤ 4096) : (traceView s).top = none :=
  if_pos ((stackEmpty_iff s).mpr h)

/-- Above the stack base the word below sp has storage, so the trace shows it. -/
theorem traceView_top_of_nonempty {s : State} (h : 4096 < sint s.sp) :
    ∃ w, memRead (sint s.sp - 1) s = .ok w ∧ (traceView s).top = some w := by
  have hbound := sint_bounds s.sp
  have hr := memRead_backed (a := sint s.sp - 1) (by omega) (by omega) s
  refine ⟨_, hr, ?_⟩
  have hne : ¬ stackEmpty s = true := mt (stackEmpty_iff s).mp (not_le.mpr h)
  rw [traceView, if_neg hne, hr]
  rfl

/-- Settles O54: a step on the limit has no trace, and any other step of a Running cycle has the view of the state
after it. -/
theorem traceShowsTheStateAfterTheStep : Obligations.TraceShowsTheStateAfterTheStep := by
  refine fun s hs => ⟨fun hl => ?_, fun hl => ?_⟩
  · have htrace : stepTrace s (haltOnLimit s) = none := if_pos ((limitReached_iff s).mpr hl)
    exact ⟨_, by rw [performStep_of_next (step_of_limit hs hl), htrace]⟩
  · obtain ⟨t, ht⟩ := runningStepAnswersNext s hs
    have htrace : stepTrace s t = some (traceView t) := if_neg (mt (limitReached_iff s).mp (not_le.mpr hl))
    exact ⟨t, traceView t, ht, by rw [performStep_of_next ht, htrace], rfl, rfl, rfl, rfl, rfl, rfl, rfl,
      traceView_top_of_empty, traceView_top_of_nonempty⟩

end Sys2Proof.Machine
end

section
/-! PROOF. The words of 95_test_vectors.md, and the fetch hook (log entry 5). -/

namespace Sys2Proof.Machine

/-- Settles O47: eleven closed words. -/
theorem specWordsDecode : Obligations.SpecWordsDecode := by
  unfold Obligations.SpecWordsDecode
  decide

/-- The pc of a placed word addresses storage: it is the state's own where that does, else the reset pc. -/
theorem uint_placeWord_pc_lt (w : Word) (s : State) : uint (placeWord w s).pc < 32768 := by
  simp only [placeWord]
  split
  · next h => exact ((backed_iff _).mp h).2
  · decide

theorem aboutToFetch_placeWord (w : Word) (s : State) : AboutToFetch (placeWord w s) := by
  refine ⟨rfl, ?_⟩
  simp only [placeWord]
  split <;> split <;> omega

theorem memRead_placeWord (w : Word) (s : State) (b : Int) :
    memRead b (placeWord w s) = if b = uint (placeWord w s).pc then .ok w else memRead b s :=
  memRead_of_write (uint_nonneg _) (uint_placeWord_pc_lt w s) rfl b

theorem readReg_placeWord (r : Reg) (w : Word) (s : State) : readReg r (placeWord w s) = readReg r s := by
  cases r <;> rfl

theorem decode_of_decodeTableWord {nbits w : Nat} {i : Instr} (h : decodeTableWord nbits w = some i) :
    decode (BitVec.ofNat 16 (w % 2 ^ nbits)) = .ok i := by
  unfold decodeTableWord at h
  split at h
  · cases hd : decode (BitVec.ofNat 16 (w % 2 ^ nbits)) with
    | error k => rw [hd] at h; cases h
    | ok j => rw [hd] at h; exact congrArg Except.ok (Option.some.inj h)
  · cases h

/-- Settles O48: the placed word stands where the fetch reads, below the limit of a Running cycle. -/
theorem placedWordRunsNext : Obligations.PlacedWordRunsNext := by
  intro s nbits w i h
  have hfetch := (memRead_placeWord (BitVec.ofNat 16 (w % 2 ^ nbits)) s _).trans (if_pos rfl)
  refine ⟨?_, fun r _ => readReg_placeWord r _ s, rfl, fun a ha => (memRead_placeWord _ s a).trans (if_neg ha)⟩
  exact stepRunsTheDecodedInstruction _ _ i (aboutToFetch_placeWord _ s) hfetch (decode_of_decodeTableWord h)

end Sys2Proof.Machine
end
